-- ==== Sys2Proof/Word.lean ====
section
/-! DEFINITION. The words of the block: bit sequences, lanes, the state register, the status
register and the command header (spec/00_scope.md R7, R9; spec/10_state.md R20, R26;
spec/30_encoding.md R61). -/

namespace Sys2Proof

/-- A bit sequence, position 0 first (R7). -/
abbrev Bits := List Bool

/-- A lane: the 64 bits of the state at fixed (x, y), bit `z` of weight `2^z` (R9). -/
abbrev Lane := BitVec 64

/-- The 1600 bits of the state register; bit `p` is position `p` (R20, R41). -/
abbrev StateReg := BitVec 1600

/-- The 32 bits of STATUS (R26). -/
abbrev StatusReg := BitVec 32

/-- The 16-bit command header (R61). -/
abbrev Header := BitVec 16

end Sys2Proof
end

