-- ==== Sys2Proof/Syntax.lean ====
section
/-! DEFINITION. The twelve commands of spec/30_encoding.md R62 and the command frame of R60. -/

namespace Sys2Proof

/-- A command frame (R60): a header and a payload of any finite length. -/
structure Frame where
  hdr : Header
  payload : Bits
  deriving DecidableEq, Repr

/-- The twelve assigned opcodes (R62), by mnemonic. -/
inductive Opcode where
  | init | rdsr | lds | sts | theta | rhopi | chi | iota | round | perm | sponge | hash
  deriving DecidableEq, Repr

/-- A command with its operands: the immediate where the command has one (R63), the payload where
the command takes one (R47). -/
inductive Instr where
  /-- INIT (R170). -/
  | init
  /-- RDSR n (R171). -/
  | rdsr (n : BitVec 5)
  /-- LDS (R83), with its payload. -/
  | lds (s : Bits)
  /-- STS (R84). -/
  | sts
  /-- THETA (R91). -/
  | theta
  /-- RHOPI (R101). -/
  | rhopi
  /-- CHI (R106). -/
  | chi
  /-- IOTA ir (R113). -/
  | iota (ir : BitVec 5)
  /-- ROUND ir (R122). -/
  | round (ir : BitVec 5)
  /-- PERM (R132). -/
  | perm
  /-- SPONGE (R150), with its payload `N`. -/
  | sponge (n : Bits)
  /-- HASH (R151), with its payload `M`. -/
  | hash (m : Bits)
  deriving DecidableEq, Repr

end Sys2Proof
end

