-- ==== Sys2Proof/WellFormed.lean ====
section
/-! DEFINITION. Which instruction terms a header can name: the immediate's legal range
(spec/30_encoding.md R63). A payload of the wrong length is not ill formed: the command runs and
raises its own error (R71 step 5). -/

namespace Sys2Proof

/-- The immediate of the instruction lies in its legal range (R63). -/
def Instr.wf : Instr → Bool
  | .rdsr n => n == 0
  | .iota ir => decide (ir.toNat ≤ 23)
  | .round ir => decide (ir.toNat ≤ 23)
  | .init | .lds _ | .sts | .theta | .rhopi | .chi | .perm | .sponge _ | .hash _ => true

end Sys2Proof
end

