-- ==== Sys2Proof/Decode.lean ====
section
/-! DEFINITION. Decoding a command frame in the order of spec/30_encoding.md R71, total on every
header and payload and rejecting by name, and the encoder of R61 and R62. -/

namespace Sys2Proof

/-! ### Header fields (R61) -/

/-- `op`, bits 7:0 (R61). -/
def hdrOp (h : Header) : BitVec 8 := h.extractLsb' 0 8

/-- `imm`, bits 12:8 (R61). -/
def hdrImm (h : Header) : BitVec 5 := h.extractLsb' 8 5

/-- `rsv`, bits 15:13 (R61). -/
def hdrRsv (h : Header) : BitVec 3 := h.extractLsb' 13 3

/-- The header with the given fields (R61): `rsv·8192 + imm·256 + op`. -/
def mkHeader (rsv : BitVec 3) (imm : BitVec 5) (op : BitVec 8) : Header := rsv ++ imm ++ op

/-! ### The opcode map (R62) -/

/-- The opcode a value of `op` selects, none for the 244 unassigned values (R62, R65). -/
def opcodeOf (op : BitVec 8) : Option Opcode :=
  match op.toNat with
  | 0x01 => some .init
  | 0x02 => some .rdsr
  | 0x10 => some .lds
  | 0x11 => some .sts
  | 0x20 => some .theta
  | 0x21 => some .rhopi
  | 0x22 => some .chi
  | 0x23 => some .iota
  | 0x28 => some .round
  | 0x30 => some .perm
  | 0x40 => some .sponge
  | 0x41 => some .hash
  | _ => none

/-- The value of `op` that selects an opcode (R62). -/
def Opcode.value : Opcode → BitVec 8
  | .init => 0x01#8
  | .rdsr => 0x02#8
  | .lds => 0x10#8
  | .sts => 0x11#8
  | .theta => 0x20#8
  | .rhopi => 0x21#8
  | .chi => 0x22#8
  | .iota => 0x23#8
  | .round => 0x28#8
  | .perm => 0x30#8
  | .sponge => 0x40#8
  | .hash => 0x41#8

/-- The legal range of the immediate (R63): `ir` 0..23, `n` = 0, and 0 for every other command. -/
def Opcode.immLegal (o : Opcode) (imm : BitVec 5) : Bool :=
  match o with
  | .iota | .round => decide (imm.toNat ≤ 23)
  | .rdsr => imm == 0
  | .init | .lds | .sts | .theta | .rhopi | .chi | .perm | .sponge | .hash => imm == 0

/-- The commands that take a payload (spec/20_memory.md R47). -/
def Opcode.takesPayload : Opcode → Bool
  | .lds | .sponge | .hash => true
  | .init | .rdsr | .sts | .theta | .rhopi | .chi | .iota | .round | .perm => false

/-- The instruction of an opcode, its immediate and its payload. -/
def Opcode.instr (o : Opcode) (imm : BitVec 5) (payload : Bits) : Instr :=
  match o with
  | .init => .init
  | .rdsr => .rdsr imm
  | .lds => .lds payload
  | .sts => .sts
  | .theta => .theta
  | .rhopi => .rhopi
  | .chi => .chi
  | .iota => .iota imm
  | .round => .round imm
  | .perm => .perm
  | .sponge => .sponge payload
  | .hash => .hash payload

/-! ### Decoding (R71) -/

/-- Why a frame is an illegal command: the four checks of R71, in their order. -/
inductive DecodeError where
  /-- Step 1: `rsv ≠ 0`. -/
  | reservedBits
  /-- Step 2: `op` is not one of the twelve values. -/
  | unassignedOpcode
  /-- Step 3: `imm` is outside the legal range for `op`. -/
  | immediateOutOfRange
  /-- Step 4: a payload on a command whose payload must be empty. -/
  | unexpectedPayload
  deriving DecidableEq, Repr

/-- What decoding a frame answers: one command, or an illegal command and why (R71). -/
inductive Decoded where
  | command (i : Instr)
  | illegal (why : DecodeError)
  deriving DecidableEq, Repr

/-- The decoding order of R71. -/
def decode (f : Frame) : Decoded :=
  if hdrRsv f.hdr ≠ 0 then .illegal .reservedBits
  else
    match opcodeOf (hdrOp f.hdr) with
    | none => .illegal .unassignedOpcode
    | some o =>
      if o.immLegal (hdrImm f.hdr) = false then .illegal .immediateOutOfRange
      else if o.takesPayload = false ∧ f.payload ≠ [] then .illegal .unexpectedPayload
      else .command (o.instr (hdrImm f.hdr) f.payload)

/-! ### Encoding (R61, R62) -/

/-- The opcode of an instruction (R62). -/
def Instr.opcode : Instr → Opcode
  | .init => .init
  | .rdsr _ => .rdsr
  | .lds _ => .lds
  | .sts => .sts
  | .theta => .theta
  | .rhopi => .rhopi
  | .chi => .chi
  | .iota _ => .iota
  | .round _ => .round
  | .perm => .perm
  | .sponge _ => .sponge
  | .hash _ => .hash

/-- The immediate of an instruction, 0 where it has none (R61, R63). -/
def Instr.imm : Instr → BitVec 5
  | .rdsr n => n
  | .iota ir => ir
  | .round ir => ir
  | .init | .lds _ | .sts | .theta | .rhopi | .chi | .perm | .sponge _ | .hash _ => 0

/-- The payload of an instruction, empty where it takes none (R47). -/
def Instr.payload : Instr → Bits
  | .lds s => s
  | .sponge n => n
  | .hash m => m
  | .init | .rdsr _ | .sts | .theta | .rhopi | .chi | .iota _ | .round _ | .perm => []

/-- The frame of an instruction (R61, R62). -/
def encode (i : Instr) : Frame :=
  { hdr := mkHeader 0 i.imm i.opcode.value, payload := i.payload }

/-! ### The host's numbering of a table row's bits -/

/-- The payload of a table word: the bits above the header, extended with zero bits to the 1600 that
LDS takes (notes/assumptions/9.md). -/
def tablePayload (nbits w : Nat) (h : Header) : Bits :=
  let given := (List.range (nbits - 16)).map fun k => w.testBit (16 + k)
  match opcodeOf (hdrOp h) with
  | some .lds => given ++ List.replicate (1600 - given.length) false
  | _ => given

/-- The frame whose first `nbits` bits are `w`: the header is bits 15:0, every bit above `nbits` is 0. -/
def tableFrame (nbits w : Nat) : Frame :=
  let h : Header := BitVec.ofNat 16 (w % 2 ^ nbits)
  { hdr := h, payload := tablePayload nbits w h }

/-- The instruction the decoder reads from a table word. -/
def decodeTableWord (nbits w : Nat) : Option Instr :=
  match decode (tableFrame nbits w) with
  | .command i => some i
  | .illegal _ => none

end Sys2Proof
end

