-- ==== Sys2Proof/Config.lean ====
section
/-! DEFINITION. What an implementation fixes: the configuration record of spec/00_scope.md R4.
`b = 1600`, `w = 64` and `NR = 24` are fixed for this hardware and stand in the types. The spec
leaves no value of a result open (R17), so there is no free value here. -/

namespace Sys2Proof

/-- The elaboration-time parameters (R4): capacity and digest length, in bits. -/
structure Config where
  c : Nat
  d : Nat
  deriving DecidableEq, Repr

/-- The shipped configuration (R4). -/
def Config.shipped : Config := { c := 512, d := 256 }

end Sys2Proof
end

