-- ==== Sys2Proof/Machine/State.lean ====
section
/-! DEFINITION. The state of the machine (spec/10_state.md, spec/70_reset_and_hazards.md R211), the
host's side of the two channels (spec/00_scope.md R36), and the reasons a step can stop. -/

namespace Sys2Proof.Machine

/-- The four errors of spec/60_exceptions.md R180. -/
inductive Error where
  /-- LDS: the payload length is not 1600 (R181). -/
  | invalidInputLength
  /-- SPONGE, HASH: the configuration is invalid (R182). -/
  | invalidParameter
  /-- HASH: the payload length is not a multiple of 8 (R183). -/
  | encodingError
  /-- A malformed frame (R184). -/
  | illegalCommand
  deriving DecidableEq, Repr

/-- A response frame (spec/30_encoding.md R60, R66): a 4-bit code and a payload. -/
structure Response where
  code : BitVec 4
  payload : Bits
  deriving DecidableEq, Repr

/-- The stage of a round to apply next (R30, R124). -/
inductive Stage where
  | theta | rhopi | chi | iota
  deriving DecidableEq, Repr

/-- The command in progress, in the finer-step view (spec/45_round_pipeline.md R124,
spec/47_sponge.md R155; R216, R220). `last` is the round index after which to stop. -/
inductive Activity where
  /-- The frame has been accepted and nothing has been done for it yet. -/
  | accepted (f : Frame)
  /-- ROUND or PERM: the stages of R124 are being applied. -/
  | rounds (last : Fin 24)
  /-- ROUND or PERM: the last stage has been applied, the response is not sent yet. -/
  | reply
  /-- SPONGE or HASH, between two permutations: the next block is due, or the squeeze (R155). -/
  | absorb
  /-- SPONGE or HASH, inside the permutation that follows a block (R155). -/
  | absorbRounds (last : Fin 24)
  deriving DecidableEq, Repr

/-- The hidden sequencing state (R30). -/
structure Seq where
  /-- `stg`: the next stage to apply. -/
  stg : Stage
  /-- `rnd`: the current round index, 0..23 (spec/90_conflicts.md C10). -/
  rnd : Fin 24
  /-- `blk`: the index of the block being absorbed. -/
  blk : Nat
  /-- The part of the padded message not yet absorbed. -/
  pending : Bits
  /-- The command in progress, none when the block is ready (R211, R216). -/
  activity : Option Activity
  deriving DecidableEq, Repr

/-- The hidden state at every command boundary (R30, R211). -/
def Seq.idle : Seq := { stg := .theta, rnd := 0, blk := 0, pending := [], activity := none }

/-- A move of the host (R36). -/
inductive HostMove where
  /-- (a) Send a command frame; the command is one step (R15). -/
  | send (f : Frame)
  /-- (a) Send a command frame; the command is seen in the finer steps of R124 and R155 (R14). -/
  | sendStepped (f : Frame)
  /-- (b) Receive the oldest response that was sent. -/
  | receive
  /-- (c) Assert reset, enabled always (R210, R220). -/
  | assertReset
  /-- Do nothing while the block takes one finer step, if a command is in progress. -/
  | pause
  deriving DecidableEq, Repr

/-- The state of the block (`S`, `status`, `seq`, `cfg`) and of the host's side of it (`host`,
`responses`, `received`; the model's own fields, notes/assumptions/3.md and 4.md). -/
structure State where
  /-- The state register `S` (R20). -/
  S : StateReg
  /-- The status register `STATUS` (R26). -/
  status : StatusReg
  /-- The hidden sequencing state (R30). -/
  seq : Seq
  /-- The configuration `{c, d}` (R4): read, never written. -/
  cfg : Config
  /-- What the host will do next, oldest first. -/
  host : List HostMove
  /-- The response channel: frames sent and not yet received, oldest first. -/
  responses : List Response
  /-- The responses the host has received, in order (R35). -/
  received : List Response
  deriving DecidableEq, Repr

/-- The reasons for a machine fault: NONE. Every error of the block is a response with a non-zero
code after which it goes on (R180, R190), and every command ends (R15). Nobody raises a fault;
having no constructor is neither safe nor unsafe, it is what the spec says. -/
inductive Fault where
  deriving DecidableEq, Repr

/-- The reasons for a refusal. -/
inductive Refusal where
  /-- An instruction that has no meaning yet. Raised by an arm of `exec` only, and by none of them
  now; safe, since nothing can be proved of such an instruction. -/
  | notModelled (mnemonic : String)
  deriving DecidableEq, Repr

/-- What a meaning answers. -/
abbrev Result := Host.Outcome State Fault Refusal

/-- The reset state (R211, R32), in the shipped configuration, with a host that has no move left. -/
def State.reset : State :=
  { S := 0, status := 0, seq := Seq.idle, cfg := Config.shipped,
    host := [], responses := [], received := [] }

end Sys2Proof.Machine
end

