-- ==== Sys2Proof/Machine/Flags.lean ====
section
/-! DEFINITION. The status register: its fields (spec/10_state.md R26) and how a command's outcome
changes it (R27). -/

namespace Sys2Proof.Machine

/-- The response code of an error (spec/30_encoding.md R66, spec/60_exceptions.md R180). -/
def Error.code : Error → BitVec 4
  | .invalidInputLength => 1
  | .invalidParameter => 2
  | .encodingError => 3
  | .illegalCommand => 4

/-- `LASTCODE`, bits 3:0 (R26). -/
def lastCode (st : StatusReg) : BitVec 4 := st.extractLsb' 0 4

/-- `SF_LEN`, bit 4 (R26). -/
def sfLen (st : StatusReg) : Bool := st.getLsbD 4

/-- `SF_PARAM`, bit 5 (R26). -/
def sfParam (st : StatusReg) : Bool := st.getLsbD 5

/-- `SF_ENC`, bit 6 (R26). -/
def sfEnc (st : StatusReg) : Bool := st.getLsbD 6

/-- `SF_ILL`, bit 7 (R26). -/
def sfIll (st : StatusReg) : Bool := st.getLsbD 7

/-- The sticky bit of an error: 1 → bit 4, 2 → bit 5, 3 → bit 6, 4 → bit 7 (R27 (b)). -/
def Error.stickyBit (e : Error) : Nat := 3 + e.code.toNat

/-- `LASTCODE <- code`, every other bit kept. -/
def setLastCode (st : StatusReg) (code : BitVec 4) : StatusReg :=
  st.extractLsb' 4 28 ++ code

/-- STATUS after success, but for RDSR and INIT (R27 (a)). -/
def statusOk (st : StatusReg) : StatusReg := setLastCode st 0

/-- STATUS after an error (R27 (b), R190): `LASTCODE <- code` and the error's sticky bit set. -/
def statusError (st : StatusReg) (e : Error) : StatusReg :=
  setLastCode st e.code ||| (1#32 <<< e.stickyBit)

end Sys2Proof.Machine
end

