-- ==== Sys2Proof/Machine/Operands.lean ====
section
/-! DEFINITION. The forms in which a command sees its operands: bit sequences and registers
(spec/20_memory.md R44), positions, coordinates and lanes (spec/40_state_codec.md R80, R81), the
immediate (spec/30_encoding.md R63). -/

namespace Sys2Proof.Machine

/-! ### Bit sequences and registers (R44) -/

/-- The number whose bit of weight `2^p` is position `p` of the sequence. -/
def bitsToNat : Bits → Nat
  | [] => 0
  | b :: bs => b.toNat + 2 * bitsToNat bs

/-- The register value whose bit `p` is position `p` of the sequence (R44). -/
def ofBits (w : Nat) (bs : Bits) : BitVec w := BitVec.ofNat w (bitsToNat bs)

/-- The sequence whose position `p` is bit `p` of the register (R44). -/
def toBits {w : Nat} (v : BitVec w) : Bits := (List.range w).map v.getLsbD

/-! ### The state array as a view of `S` (R80, R85) -/

/-- The position of `A[x,y,z]`: `64·(5·y + x) + z` (R80). -/
def pos (x y : Fin 5) (z : Nat) : Nat := 64 * (5 * y.val + x.val) + z

/-- `A[x,y,z]` (R80). -/
def bitAt (S : StateReg) (x y : Fin 5) (z : Nat) : Bool := S.getLsbD (pos x y z)

/-- The lane `L[x,y]` (R9, R21). -/
def lane (S : StateReg) (x y : Fin 5) : Lane := S.extractLsb' (pos x y 0) 64

/-- The register whose lanes `0 .. n-1` are given by lane number and whose other bits are 0. -/
def assemble (f : Nat → Lane) : Nat → StateReg
  | 0 => 0
  | n + 1 => assemble f n ||| ((f n).setWidth 1600 <<< (64 * n))

/-- The register whose lane `L[x,y]` is `f x y`; lane number `i = 5·y + x` (R9). -/
def ofLanes (f : Fin 5 → Fin 5 → Lane) : StateReg :=
  assemble (fun i => f (Fin.ofNat 5 i) (Fin.ofNat 5 (i / 5))) 25

/-- `rotl(v, n)`: rotation toward the more significant end (spec/41_theta.md R92). -/
def rotl (v : Lane) (n : Nat) : Lane := v.rotateLeft n

/-! ### The immediate (R63) -/

/-- The round index an immediate names, none for 24..31 (R63). -/
def roundIndex (imm : BitVec 5) : Option (Fin 24) :=
  if h : imm.toNat < 24 then some ⟨imm.toNat, h⟩ else none

end Sys2Proof.Machine
end

