-- ==== Sys2Proof/Machine/Ops.lean ====
section
/-! DEFINITION. The named operations over the registers: the writes, the end of a command with its
response (spec/00_scope.md R13 `respond`), error entry (`raise`, spec/60_exceptions.md R190), and
reset (spec/70_reset_and_hazards.md R211, R220). There is no return from an error (R191): the failing
command is over when its response is sent. -/

namespace Sys2Proof.Machine

/-- `S <- v`: all 1600 bits at once (R25, R48). -/
def State.setS (s : State) (v : StateReg) : State := { s with S := v }

/-- `STATUS <- v`. -/
def State.setStatus (s : State) (v : StatusReg) : State := { s with status := v }

/-- Write the hidden sequencing state. -/
def State.setSeq (s : State) (q : Seq) : State := { s with seq := q }

/-- The host's remaining moves. -/
def State.setHost (s : State) (h : List HostMove) : State := { s with host := h }

/-- Put a response frame on the response channel. -/
def State.push (s : State) (r : Response) : State := { s with responses := s.responses ++ [r] }

/-- `respond(code, payload)` (R13): one response frame, and the block is ready again with its hidden
state idle (R30, R216). -/
def State.respond (s : State) (code : BitVec 4) (payload : Bits) : State :=
  (s.setSeq Seq.idle).push { code := code, payload := payload }

/-- A command that is neither RDSR nor INIT ends with code 0: `LASTCODE <- 0` (R27 (a)). -/
def State.succeed (s : State) (payload : Bits) : State :=
  (s.setStatus (statusOk s.status)).respond 0 payload

/-- `raise <Error>()` (R13, R190): `S` unchanged, STATUS written, hidden state idle, an empty response
with the error's code. -/
def State.raise (s : State) (e : Error) : State :=
  (s.setStatus (statusError s.status e)).respond e.code []

/-- Reset (R211, R220): the block is put in the reset state whatever state it was in; a command in
progress is abandoned with no response; the configuration is not affected; what has been sent and
received, and what the host does next, is not the block's. -/
def State.resetBlock (s : State) : State :=
  ((s.setS 0).setStatus 0).setSeq Seq.idle

/-- The host takes the oldest response off the channel (R36 (b)). -/
def State.takeResponse (s : State) (r : Response) (rest : List Response) : State :=
  { s with responses := rest, received := s.received ++ [r] }

end Sys2Proof.Machine
end

