-- ==== Sys2Proof/Machine/Codec.lean ====
section
/-! DEFINITION. The commands of the state codec, LDS and STS (spec/40_state_codec.md). -/

namespace Sys2Proof.Machine

/-- LDS (R83): the length is checked before any bit of `S` is written. -/
def execLds (bs : Bits) (s : State) : Result :=
  if bs.length = 1600 then .next ((s.setS (ofBits 1600 bs)).succeed [])
  else .next (s.raise .invalidInputLength)

/-- STS (R84). -/
def execSts (s : State) : Result := .next (s.succeed (toBits s.S))

end Sys2Proof.Machine
end

