-- ==== Sys2Proof/Machine/Tables.lean ====
section
/-! DEFINITION. The two read-only constant tables: the round constants of spec/44_iota.md R110 and
the rotation offsets of spec/42_rho_pi.md R96. -/

namespace Sys2Proof.Machine

/-- The rows of the table of R110: the round index and the value, as the document writes it. -/
def roundConstantRows : Vector (Nat × Lane) 24 := #v[
  (0, 0x1), (1, 0x8082), (2, 0x800000000000808A),
  (3, 0x8000000080008000), (4, 0x808B), (5, 0x80000001),
  (6, 0x8000000080008081), (7, 0x8000000000008009), (8, 0x8A),
  (9, 0x88), (10, 0x80008009), (11, 0x8000000A),
  (12, 0x8000808B), (13, 0x800000000000008B), (14, 0x8000000000008089),
  (15, 0x8000000000008003), (16, 0x8000000000008002), (17, 0x8000000000000080),
  (18, 0x800A), (19, 0x800000008000000A), (20, 0x8000000080008081),
  (21, 0x8000000000008080), (22, 0x80000001), (23, 0x8000000080008008)]

/-- `RC[ir]` (R110). -/
def rc (ir : Fin 24) : Lane := roundConstantRows[ir].2

/-- `rcbit(ir, z)`: bit `z` of a round constant (R111). -/
def rcBit (ir : Fin 24) (z : Nat) : Bool := (rc ir).getLsbD z

/-- `OFFSET[x][y]` (R96), one row per `x`. PRESUMED: the values are the published standard's, which
the spec took from general knowledge and checked (notes/assumptions/2.md). Unsafe. -/
def offsets : Vector (Vector Nat 5) 5 := #v[
  #v[0, 36, 3, 41, 18],
  #v[1, 44, 10, 45, 2],
  #v[62, 6, 43, 15, 61],
  #v[28, 55, 25, 21, 56],
  #v[27, 20, 39, 8, 14]]

/-- `OFFSET[x][y]`, indexed x first (R96). -/
def offset (x y : Fin 5) : Nat := offsets[x][y]

end Sys2Proof.Machine
end

