-- ==== Sys2Proof/Machine/Permutation.lean ====
section
/-! DEFINITION. The pure functions of the permutation: Theta, Rho, Pi, RhoPi, Chi, Iota, Rnd and
KeccakP. Each is a function of the whole old state (spec/10_state.md R25), written in the spec's lane
form (R92, R97, R99, R107, R112; notes/assumptions/1.md). Indices x and y are `Fin 5`, whose
arithmetic is the `mod 5` of spec/00_scope.md R10. -/

namespace Sys2Proof.Machine

/-- The column parities `C[x]` (R92). -/
def thetaC (A : StateReg) (x : Fin 5) : Lane :=
  lane A x 0 ^^^ lane A x 1 ^^^ lane A x 2 ^^^ lane A x 3 ^^^ lane A x 4

/-- The diffusion terms `D[x]` (R92). -/
def thetaD (A : StateReg) (x : Fin 5) : Lane :=
  thetaC A (x - 1) ^^^ rotl (thetaC A (x + 1)) 1

/-- `Theta(A)` (R90, R92). -/
def theta (A : StateReg) : StateReg := ofLanes fun x y => lane A x y ^^^ thetaD A x

/-- `Rho(A)` (R95, R97). -/
def rho (A : StateReg) : StateReg := ofLanes fun x y => rotl (lane A x y) (offset x y)

/-- `Pi(A)` (R98, R99). -/
def pi (A : StateReg) : StateReg := ofLanes fun x y => lane A (x + 3 * y) x

/-- `RhoPi(A) = Pi(Rho(A))` (R100). -/
def rhoPi (A : StateReg) : StateReg := pi (rho A)

/-- `Chi(A)` (R105, R107). -/
def chi (A : StateReg) : StateReg :=
  ofLanes fun x y => lane A x y ^^^ (~~~ lane A (x + 1) y &&& lane A (x + 2) y)

/-- `Iota(A, ir)` (R112): the round constant is XORed into lane (0,0), positions 0..63. -/
def iota (A : StateReg) (ir : Fin 24) : StateReg := A ^^^ (rc ir).setWidth 1600

/-- `Rnd(A, ir)` (R120). -/
def rnd (A : StateReg) (ir : Fin 24) : StateReg := iota (chi (rhoPi (theta A))) ir

/-- `KeccakP` on the register (R130): rounds 0, 1, ..., 23 in this order. -/
def keccakP (A : StateReg) : StateReg := (List.finRange 24).foldl rnd A

end Sys2Proof.Machine
end

