-- ==== Sys2Proof/Machine/SpongeEngine.lean ====
section
/-! DEFINITION. The pure functions of the sponge engine: padding, blocks, absorb and squeeze
(spec/47_sponge.md R141 to R149). -/

namespace Sys2Proof.Machine

/-- A valid configuration: `b - c > 0` and `d ≤ b - c`, with `b = 1600` (spec/00_scope.md R5). -/
def cfgValid (cfg : Config) : Bool := decide (cfg.c < 1600) && decide (cfg.d ≤ 1600 - cfg.c)

/-- The rate `r = b - c` (R4); meant for a valid configuration. -/
def rate (cfg : Config) : Nat := 1600 - cfg.c

/-- `j = (-m - 2) mod r`, with the `mod` of R10 (R141). -/
def padZeros (r m : Nat) : Nat := ((-(m : Int) - 2) % (r : Int)).toNat

/-- `Pad(r, m) = (1) ‖ 0^j ‖ (1)` (R141). -/
def pad (r m : Nat) : Bits := [true] ++ List.replicate (padZeros r m) false ++ [true]

/-- The padded message `P = N ‖ Pad(r, m)` (R143). -/
def padded (r : Nat) (n : Bits) : Bits := n ++ pad r n.length

/-- The blocks `P_i = P[i·r .. (i+1)·r]`, `i = 0 .. |P|/r - 1` (R143). -/
def blocks (r : Nat) (p : Bits) : List Bits :=
  (List.range (p.length / r)).map fun i => (p.drop (i * r)).take r

/-- `T xor (P_i ‖ 0^c)` (R144). -/
def xorBlock (cfg : Config) (T : StateReg) (block : Bits) : StateReg :=
  T ^^^ ofBits 1600 (block ++ List.replicate cfg.c false)

/-- The absorb phase (R144): from `0^b`, XOR a block and permute, for every block in order. -/
def absorbAll (cfg : Config) (bs : List Bits) : StateReg :=
  bs.foldl (fun T block => keccakP (xorBlock cfg T block)) 0

/-- The squeeze and the truncation (R145): `Z = T[0..r]`, `digest = Z[0..d]`. -/
def squeeze (cfg : Config) (T : StateReg) : Bits := ((toBits T).take (rate cfg)).take cfg.d

/-- The final running state of `Sponge(N, 1600, c, d)` (R146). -/
def spongeState (cfg : Config) (n : Bits) : StateReg :=
  absorbAll cfg (blocks (rate cfg) (padded (rate cfg) n))

/-- The domain-separation suffix `01`: first bit 0, second bit 1 (R149). -/
def suffix : Bits := [false, true]

/-- What HASH absorbs: `M ‖ (0,1)` (R149, R153). -/
def withSuffix (m : Bits) : Bits := m ++ suffix

end Sys2Proof.Machine
end

