-- ==== Sys2Proof/Machine/Hashing.lean ====
section
/-! DEFINITION. SPONGE and HASH (spec/47_sponge.md R150, R151). -/

namespace Sys2Proof.Machine

/-- The common part of SPONGE and HASH once their checks have passed: absorb `n`, leave the final
running state in `S`, respond with the digest (R150). -/
def finishSponge (n : Bits) (s : State) : State :=
  (s.setS (spongeState s.cfg n)).succeed (squeeze s.cfg (spongeState s.cfg n))

/-- SPONGE (R150): the configuration is checked before `S` is touched. -/
def execSponge (n : Bits) (s : State) : Result :=
  if cfgValid s.cfg = false then .next (s.raise .invalidParameter)
  else .next (finishSponge n s)

/-- HASH (R151): the configuration first, then the whole-bytes check (R186). -/
def execHash (m : Bits) (s : State) : Result :=
  if cfgValid s.cfg = false then .next (s.raise .invalidParameter)
  else if m.length % 8 ≠ 0 then .next (s.raise .encodingError)
  else .next (finishSponge (withSuffix m) s)

end Sys2Proof.Machine
end

