-- ==== Sys2Proof/Machine/Rounds.lean ====
section
/-! DEFINITION. ROUND (spec/45_round_pipeline.md R122) and PERM (spec/46_permutation.md R132). -/

namespace Sys2Proof.Machine

/-- ROUND ir (R122): a round index of 24..31 is an illegal command. -/
def execRound (ir : BitVec 5) (s : State) : Result :=
  match roundIndex ir with
  | some k => .next ((s.setS (rnd s.S k)).succeed [])
  | none => .next (s.raise .illegalCommand)

/-- PERM (R132). -/
def execPerm (s : State) : Result := .next ((s.setS (keccakP s.S)).succeed [])

end Sys2Proof.Machine
end

