-- ==== Sys2Proof/Machine/Steps.lean ====
section
/-! DEFINITION. The commands that apply one step transformation to `S`: THETA (spec/41_theta.md R91),
RHOPI (spec/42_rho_pi.md R101), CHI (spec/43_chi.md R106), IOTA (spec/44_iota.md R113). -/

namespace Sys2Proof.Machine

/-- THETA (R91). -/
def execTheta (s : State) : Result := .next ((s.setS (theta s.S)).succeed [])

/-- RHOPI (R101). -/
def execRhopi (s : State) : Result := .next ((s.setS (rhoPi s.S)).succeed [])

/-- CHI (R106). -/
def execChi (s : State) : Result := .next ((s.setS (chi s.S)).succeed [])

/-- IOTA ir (R113): a round index of 24..31 is an illegal command. -/
def execIota (ir : BitVec 5) (s : State) : Result :=
  match roundIndex ir with
  | some k => .next ((s.setS (iota s.S k)).succeed [])
  | none => .next (s.raise .illegalCommand)

end Sys2Proof.Machine
end

