-- ==== Sys2Proof/Machine/System.lean ====
section
/-! DEFINITION. The system commands INIT and RDSR (spec/48_system.md). -/

namespace Sys2Proof.Machine

/-- INIT (R170): `S` and STATUS are cleared, sticky bits included (R27 (d)). -/
def execInit (s : State) : Result :=
  .next (((s.setS 0).setStatus 0).respond 0 [])

/-- RDSR n (R171): only register 0 exists (R42); on success STATUS is unchanged (R27 (c)). -/
def execRdsr (n : BitVec 5) (s : State) : Result :=
  if n = 0 then .next (s.respond 0 (toBits s.status))
  else .next (s.raise .illegalCommand)

end Sys2Proof.Machine
end

