-- ==== Sys2Proof/Machine/Dispatch.lean ====
section
/-! DEFINITION. One arm per command: the atomic effect of spec/00_scope.md R15. -/

namespace Sys2Proof.Machine

/-- The effect of a command: the state after it, with its response (R15). -/
def exec (i : Instr) (s : State) : Host.Outcome State Fault Refusal :=
  match i with
  | .init => Sys2Proof.Machine.execInit s
  | .rdsr n => Sys2Proof.Machine.execRdsr n s
  | .lds bs => Sys2Proof.Machine.execLds bs s
  | .sts => Sys2Proof.Machine.execSts s
  | .theta => Sys2Proof.Machine.execTheta s
  | .rhopi => Sys2Proof.Machine.execRhopi s
  | .chi => Sys2Proof.Machine.execChi s
  | .iota ir => Sys2Proof.Machine.execIota ir s
  | .round ir => Sys2Proof.Machine.execRound ir s
  | .perm => Sys2Proof.Machine.execPerm s
  | .sponge n => Sys2Proof.Machine.execSponge n s
  | .hash m => Sys2Proof.Machine.execHash m s

end Sys2Proof.Machine
end

