-- ==== Sys2Proof/Machine/Sequencer.lean ====
section
/-! DEFINITION. The finer-step view of a command: the sequencer of spec/45_round_pipeline.md R124 and
the block loop of spec/47_sponge.md R155. Where the spec does not say which finer step an action
belongs to, notes/assumptions/7.md says what the model does. -/

namespace Sys2Proof.Machine

/-- One step of R124: the stage `stg` names is applied; `rnd` advances only in the IOTA step, and
after round `last` the sequencer has finished. -/
def stageStep (last : Fin 24) (finished : State → State) (s : State) : State :=
  match s.seq.stg with
  | .theta => (s.setS (theta s.S)).setSeq { s.seq with stg := .rhopi }
  | .rhopi => (s.setS (rhoPi s.S)).setSeq { s.seq with stg := .chi }
  | .chi => (s.setS (chi s.S)).setSeq { s.seq with stg := .iota }
  | .iota =>
    if s.seq.rnd = last then
      finished ((s.setS (iota s.S s.seq.rnd)).setSeq { s.seq with stg := .theta, rnd := 0 })
    else
      (s.setS (iota s.S s.seq.rnd)).setSeq { s.seq with stg := .theta, rnd := s.seq.rnd + 1 }

/-- ROUND and PERM after their last stage: only the response is left (R122, R132). -/
def toReply (s : State) : State := s.setSeq { s.seq with activity := some .reply }

/-- SPONGE and HASH after a permutation: `blk <- blk + 1` (R155). -/
def nextBlock (s : State) : State :=
  s.setSeq { s.seq with blk := s.seq.blk + 1, activity := some .absorb }

/-- The start of R124: `stg = THETA`, `rnd = first`. -/
def startRounds (first last : Fin 24) (s : State) : State :=
  s.setSeq { Seq.idle with rnd := first, activity := some (.rounds last) }

/-- The start of R155: `S <- 0^1600`, `blk <- 0`, the whole padded message pending. -/
def startSponge (n : Bits) (s : State) : State :=
  (s.setS 0).setSeq
    { Seq.idle with pending := padded (rate s.cfg) n, activity := some .absorb }

/-- Between two permutations (R155): XOR the next block, or respond with the digest when the whole
message has been absorbed. -/
def absorbStep (s : State) : State :=
  if s.seq.pending = [] then s.succeed (squeeze s.cfg s.S)
  else
    (s.setS (xorBlock s.cfg s.S (s.seq.pending.take (rate s.cfg)))).setSeq
      { s.seq with
        stg := .theta, rnd := 0, pending := s.seq.pending.drop (rate s.cfg),
        activity := some (.absorbRounds 23) }

/-- The first finer step of an instruction: the commands that are one step of the block take their
effect, the others pass their checks and start the sequencer. -/
def beginInstr (i : Instr) (s : State) : Result :=
  match i with
  | .init => exec .init s
  | .rdsr n => exec (.rdsr n) s
  | .lds bs => exec (.lds bs) s
  | .sts => exec .sts s
  | .theta => exec .theta s
  | .rhopi => exec .rhopi s
  | .chi => exec .chi s
  | .iota ir => exec (.iota ir) s
  | .round ir =>
    match roundIndex ir with
    | some k => .next (startRounds k k s)
    | none => .next (s.raise .illegalCommand)
  | .perm => .next (startRounds 0 23 s)
  | .sponge n =>
    if cfgValid s.cfg = false then .next (s.raise .invalidParameter)
    else .next (startSponge n s)
  | .hash m =>
    if cfgValid s.cfg = false then .next (s.raise .invalidParameter)
    else if m.length % 8 ≠ 0 then .next (s.raise .encodingError)
    else .next (startSponge (withSuffix m) s)

/-- The step that decodes an accepted frame (R71) and begins its command. -/
def beginFrame (f : Frame) (s : State) : Result :=
  match decode f with
  | .illegal _ => .next (s.raise .illegalCommand)
  | .command i => beginInstr i s

/-- One finer step of the command in progress. -/
def fineStep (a : Activity) (s : State) : Result :=
  match a with
  | .accepted f => beginFrame f s
  | .rounds last => .next (stageStep last toReply s)
  | .reply => .next (s.succeed [])
  | .absorb => .next (absorbStep s)
  | .absorbRounds last => .next (stageStep last nextBlock s)

/-- The block goes on by itself: one finer step of the command in progress, and nothing at all while
it waits for a frame (spec/60_exceptions.md R201). -/
def advance (s : State) : Result :=
  match s.seq.activity with
  | none => .next s
  | some a => fineStep a s

/-- `n` finer steps with no move of the host between them. -/
def advanceN : Nat → State → Result
  | 0, s => .next s
  | n + 1, s =>
    match advance s with
    | .next t => advanceN n t
    | .fault r => .fault r
    | .refused r => .refused r

end Sys2Proof.Machine
end

