-- ==== Sys2Proof/Machine/HostSide.lean ====
section
/-! DEFINITION. The host's moves and what the block does at each (spec/00_scope.md R36,
spec/70_reset_and_hazards.md R210, R216, R220), and placing one frame for the next step. -/

namespace Sys2Proof.Machine

/-- A command frame in one step (R15): decoding in the order of R71, then the command's own rule; an
illegal command raises IllegalCommand (R65, R184). -/
def runFrame (f : Frame) (s : State) : Result :=
  match decode f with
  | .illegal _ => .next (s.raise .illegalCommand)
  | .command i => exec i s

/-- The block accepts a frame and is busy (R216). -/
def accept (f : Frame) (s : State) : State :=
  s.setSeq { Seq.idle with activity := some (.accepted f) }

/-- One step of block and host together: the host's oldest move is taken if it is enabled. Reset and
receiving a sent response are enabled always (R36); sending is enabled only when the block is ready,
and a frame offered while it is busy is held (R216). -/
def hostStep (s : State) : Result :=
  match s.host with
  | [] => advance s
  | .assertReset :: rest => .next ((s.setHost rest).resetBlock)
  | .pause :: rest => advance (s.setHost rest)
  | .receive :: rest =>
    match s.responses with
    | [] => advance s
    | r :: rs => .next ((s.setHost rest).takeResponse r rs)
  | .send f :: rest =>
    match s.seq.activity with
    | none => runFrame f (s.setHost rest)
    | some a => fineStep a s
  | .sendStepped f :: rest =>
    match s.seq.activity with
    | none => .next (accept f (s.setHost rest))
    | some a => fineStep a s

/-- The state in which the very next step takes the frame of a table word: the block is ready and the
host's next move is to send it (notes/assumptions/9.md). -/
def placeWord (s : State) (nbits w : Nat) : State :=
  (s.setSeq Seq.idle).setHost (.send (tableFrame nbits w) :: s.host)

end Sys2Proof.Machine
end

