-- ==== Sys2Proof/Machine/Packing.lean ====
section
/-! DEFINITION. Bytes, bits and hexadecimal text, as the host sees messages and digests
(spec/20_memory.md R45, spec/47_sponge.md R148, R152, R160). -/

namespace Sys2Proof.Machine

/-- Bytes to bits, least significant bit of each byte first (R45, R148). -/
def bytesToBits (bs : List (BitVec 8)) : Bits := bs.flatMap toBits

/-- Bits to bytes by the same packing (R45, R152); meant for a length that is a multiple of 8, and a
ragged last group is dropped, since no byte form is defined for it (spec/93_implementation_defined.md U12). -/
def bitsToBytes (bits : Bits) : List (BitVec 8) :=
  (List.range (bits.length / 8)).map fun k => ofBits 8 ((bits.drop (8 * k)).take 8)

/-- The hexadecimal digit of a nibble, in capitals (R160). -/
def hexDigit (n : BitVec 4) : Char :=
  (("0123456789ABCDEF".toList)[n.toNat]?).getD '0'

/-- The hexadecimal text of a byte sequence: byte 0 first, the upper four bits of a byte first (R160). -/
def hexText (bs : List (BitVec 8)) : List Char :=
  bs.flatMap fun b => [hexDigit (b.extractLsb' 4 4), hexDigit (b.extractLsb' 0 4)]

end Sys2Proof.Machine
end

