-- ==== Sys2Proof/Machine/Pseudo.lean ====
section
/-! DEFINITION. The pseudo-instructions and the text of a command (spec/30_encoding.md R69, R70). -/

namespace Sys2Proof.Machine

/-- `PERMB s` (R70, spec/46_permutation.md R133). -/
def permb (bs : Bits) : List Instr := [.lds bs, .perm, .sts]

/-- `STEPS ir` (R70). -/
def steps (ir : BitVec 5) : List Instr := [.theta, .rhopi, .chi, .iota ir]

/-- `ROUNDS` (R70): `ROUND 0` to `ROUND 23`. -/
def rounds : List Instr := (List.range 24).map fun k => .round (BitVec.ofNat 5 k)

/-- The code of the newest response sent, 0 when there is none. -/
def lastResponseCode (s : State) : BitVec 4 := (s.responses.getLast?.map Response.code).getD 0

/-- The commands of a list in order, stopping after the first response with a non-zero code (R70). -/
def runInstrs : List Instr → State → Result
  | [], s => .next s
  | i :: is, s =>
    match exec i s with
    | .next t => if lastResponseCode t = 0 then runInstrs is t else .next t
    | .fault r => .fault r
    | .refused r => .refused r

/-- A payload in the notation `b"..."`, bits in position order (R69). -/
def payloadText (bs : Bits) : String :=
  "b\"" ++ String.ofList (bs.map fun b => if b then '1' else '0') ++ "\""

/-- How a payload may be written (R69). -/
inductive PayloadNote where
  /-- `b"..."`: bits in position order. -/
  | bits (bs : Bits)
  /-- `x"..."`: bytes in order, two hexadecimal digits each. -/
  | bytes (bs : List (BitVec 8))
  /-- `0^n`: n zero bits. -/
  | zeros (n : Nat)
  /-- Two notations joined. -/
  | join (a b : PayloadNote)
  deriving DecidableEq, Repr

/-- The bit sequence a written payload stands for (R69, R45). -/
def payloadOfNote : PayloadNote → Bits
  | .bits bs => bs
  | .bytes bs => bytesToBits bs
  | .zeros n => List.replicate n false
  | .join a b => payloadOfNote a ++ payloadOfNote b

/-- A payload as it is written (R69). -/
def noteText : PayloadNote → String
  | .bits bs => payloadText bs
  | .bytes bs => "x\"" ++ String.ofList (hexText bs) ++ "\""
  | .zeros n => "0^" ++ toString n
  | .join a b => noteText a ++ " ‖ " ++ noteText b

/-- A command as one line of text: mnemonic, immediate in decimal, payload (R69). -/
def commandText : Instr → String
  | .init => "INIT"
  | .rdsr n => "RDSR " ++ toString n.toNat
  | .lds bs => "LDS " ++ payloadText bs
  | .sts => "STS"
  | .theta => "THETA"
  | .rhopi => "RHOPI"
  | .chi => "CHI"
  | .iota ir => "IOTA " ++ toString ir.toNat
  | .round ir => "ROUND " ++ toString ir.toNat
  | .perm => "PERM"
  | .sponge n => "SPONGE " ++ payloadText n
  | .hash m => "HASH " ++ payloadText m

end Sys2Proof.Machine
end

