-- ==== Sys2Proof/Safety.lean ====
section
/-! DEFINITION. The terms in which claims are stated: how a command ends, bit by bit, and the
invariants of spec/96_programs_and_errors.md section 11 and spec/10_state.md R30. -/

namespace Sys2Proof.Machine

/-! ### How a command ends -/

/-- What no command changes, and the hidden state it leaves: idle (R30). -/
def Outside (s t : State) : Prop :=
  t.seq = Seq.idle ∧ t.cfg = s.cfg ∧ t.host = s.host ∧ t.received = s.received

/-- The command ended with code 0 and this payload, and is neither INIT nor RDSR: `LASTCODE` is 0,
every other STATUS bit is kept (R27 (a)), one response was sent. -/
def EndsOk (s t : State) (payload : Bits) : Prop :=
  (∀ p < 32, t.status.getLsbD p = (decide (4 ≤ p) && s.status.getLsbD p)) ∧
  t.responses = s.responses ++ [{ code := 0, payload := payload }] ∧ Outside s t

/-- The STATUS bits after an error with code `k` (R27 (b)): `LASTCODE` is `k`, the sticky bit `3 + k`
is set, every other bit is kept. -/
def ErrorStatus (s t : State) (k : Nat) : Prop :=
  ∀ p < 32, t.status.getLsbD p =
    if p < 4 then k.testBit p else (decide (p = 3 + k) || s.status.getLsbD p)

/-- The command ended with the error of code `k` (R190). -/
def EndsInError (s t : State) (k : Nat) : Prop :=
  t.S = s.S ∧ ErrorStatus s t k ∧
  t.responses = s.responses ++ [{ code := BitVec.ofNat 4 k, payload := [] }] ∧ Outside s t

/-! ### What the host is about to do -/

/-- The host offers a frame, or has no move left: moves that leave a busy block to itself (R216). -/
def OffersFrame (host : List HostMove) : Prop :=
  host = [] ∨ ∃ f rest, host = .send f :: rest ∨ host = .sendStepped f :: rest

/-! ### Invariants -/

/-- STATUS[31:8] = 0, LASTCODE ≤ 4, and LASTCODE = k ≠ 0 implies the sticky bit 3 + k is set. -/
def StatusOk (st : StatusReg) : Prop :=
  (∀ p < 32, 8 ≤ p → st.getLsbD p = false) ∧ (lastCode st).toNat ≤ 4 ∧
  (lastCode st ≠ 0 → st.getLsbD (3 + (lastCode st).toNat) = true)

/-- A response with a non-zero code has an empty payload, one with code 0 has 0, 32, `d` or 1600 bits,
and codes 5..15 are never sent (R66, R192). -/
def ResponseOk (cfg : Config) (r : Response) : Prop :=
  r.code.toNat ≤ 4 ∧ (r.code ≠ 0 → r.payload = []) ∧
  (r.code = 0 → r.payload.length ∈ [0, 32, cfg.d, 1600])

/-- The hidden state fits the command in progress (R30, R124, R155): idle when there is none. -/
def SeqOk (cfg : Config) (q : Seq) : Prop :=
  match q.activity with
  | none => q = Seq.idle
  | some (.accepted f) => q = { Seq.idle with activity := some (.accepted f) }
  | some (.rounds last) => q.rnd ≤ last ∧ q.blk = 0 ∧ q.pending = []
  | some .reply => q = { Seq.idle with activity := some .reply }
  | some .absorb =>
    cfgValid cfg = true ∧ q.stg = .theta ∧ q.rnd = 0 ∧ q.pending.length % rate cfg = 0
  | some (.absorbRounds last) =>
    cfgValid cfg = true ∧ last = 23 ∧ q.pending.length % rate cfg = 0

/-- The invariant of the machine. -/
def StateInv (s : State) : Prop :=
  StatusOk s.status ∧ SeqOk s.cfg s.seq ∧
  ∀ r ∈ s.responses ++ s.received, ResponseOk s.cfg r

end Sys2Proof.Machine
end

