-- ==== Sys2Proof/Certificates/Slice0/Obligations.lean ====
section
/-! DEFINITION. The statements for the provers, from the numbered rules of spec/. -/

open Sys2Proof Sys2Proof.Machine

/-! ### Reset, the host's moves, the step -/

/-- R211, R32: the reset state, field by field; that the shipped configuration stands in the reset state
is the model's reading (notes/assumptions/5.md). -/
def Obligations.ResetLeavesResetState : Prop :=
  (∀ p < 1600, State.reset.S.getLsbD p = false) ∧
  (∀ p < 32, State.reset.status.getLsbD p = false) ∧
  State.reset.seq.stg = .theta ∧ State.reset.seq.rnd = 0 ∧ State.reset.seq.blk = 0 ∧
  State.reset.seq.pending = [] ∧ State.reset.seq.activity = none ∧
  State.reset.cfg.c = 512 ∧ State.reset.cfg.d = 256

/-- The invariant holds at reset (spec/96_programs_and_errors.md section 11). -/
def Obligations.InvAtReset : Prop := StateInv State.reset

/-- R220, R210, R211: reset asserted in any state, in the middle of a command too: the block is in the
reset state, no response is sent for the abandoned command, the configuration is kept. That responses
sent before it stay on the channel and with the host is the MODEL'S CHOICE (notes/assumptions/4.md, open
in R6), and so is that the move leaves the list of moves (notes/assumptions/3.md). -/
def Obligations.ResetAbandonsCommand : Prop :=
  ∀ (s : State) (rest : List HostMove), s.host = .assertReset :: rest →
    ∃ t, step s = .next t ∧ t.S = 0 ∧ t.status = 0 ∧ t.seq = Seq.idle ∧ t.cfg = s.cfg ∧
      t.responses = s.responses ∧ t.received = s.received ∧ t.host = rest

/-- R216, R124, R155: the step of a block with a command in progress is one finer step of that command.
A frame offered meanwhile is held, and so is a receive with nothing sent; the host's moves are untouched.
After a pause the same, the pause taken off (the list of moves is the model's own, notes/assumptions/3.md). -/
def Obligations.BusyBlockHoldsFrame : Prop :=
  (∀ (s : State) (a : Activity), s.seq.activity = some a →
    (OffersFrame s.host ∨ ∃ rest, s.host = .receive :: rest ∧ s.responses = []) →
    ∃ t, step s = .next t ∧ fineStep a s = .next t ∧ t.host = s.host) ∧
  ∀ (s : State) (a : Activity) (rest : List HostMove), s.seq.activity = some a →
    s.host = .pause :: rest →
    ∃ t, step s = .next t ∧ fineStep a { s with host := rest } = .next t ∧ t.host = rest

/-- R201: a block that waits for a frame does not change, whether the host has no move, waits for a
response that nobody sent, or pauses; that such a step is the identity but for a pause taken off is the
model's reading (notes/assumptions/3.md, 10.md). -/
def Obligations.WaitingChangesNothing : Prop :=
  ∀ s : State, s.seq.activity = none →
    (s.host = [] → step s = .next s) ∧
    (∀ rest, s.host = .receive :: rest → s.responses = [] → step s = .next s) ∧
    ∀ rest, s.host = .pause :: rest → step s = .next { s with host := rest }

/-- R36 (b): the host receives the oldest response sent, and the block is untouched; the channel is the
model's own field (notes/assumptions/4.md). -/
def Obligations.ReceiveTakesOldestResponse : Prop :=
  ∀ (s : State) (r : Response) (rs : List Response) (rest : List HostMove),
    s.host = .receive :: rest → s.responses = r :: rs →
    ∃ t, step s = .next t ∧ t.responses = rs ∧ t.received = s.received ++ [r] ∧ t.host = rest ∧
      t.S = s.S ∧ t.status = s.status ∧ t.seq = s.seq ∧ t.cfg = s.cfg

/-- R71 step 5, R15: when the frame the host sends decodes to an instruction and the block is ready,
the step is the instruction's meaning, the frame taken off the host's moves first
(notes/assumptions/3.md, 6.md). -/
def Obligations.StepRunsDecodedInstr : Prop :=
  ∀ (s : State) (f : Frame) (rest : List HostMove) (i : Instr),
    s.seq.activity = none → s.host = .send f :: rest → decode f = .command i →
    step s = exec i { s with host := rest }

/-- R65, R184, R190: a frame that decodes to no command raises IllegalCommand, code 4. -/
def Obligations.IllegalFrameRaises : Prop :=
  ∀ (s : State) (f : Frame) (rest : List HostMove) (why : DecodeError),
    s.seq.activity = none → s.host = .send f :: rest → decode f = .illegal why →
    ∃ t, step s = .next t ∧ EndsInError { s with host := rest } t 4

/-- A placed table word is what the next step runs (the model's own placement, notes/assumptions/9.md). -/
def Obligations.PlacedWordRunsNext : Prop :=
  ∀ (s : State) (w : Nat) (i : Instr), decodeTableWord 16 w = some i →
    step (s.withFetchWord 16 w) = exec i { s with seq := Seq.idle }

/-- R15, R17, R36: every step answers a next state; no state and no host move stops the machine. -/
def Obligations.StepNeverStops : Prop := ∀ s : State, ∃ t, step s = .next t

/-- R211, R4: no step changes the configuration. -/
def Obligations.ConfigNeverChanges : Prop :=
  ∀ s t : State, step s = .next t → t.cfg = s.cfg

/-- Section 11 of spec/96_programs_and_errors.md, R26, R30: every step keeps the invariant. -/
def Obligations.StepKeepsInv : Prop :=
  ∀ s t : State, StateInv s → step s = .next t → StateInv t

/-- R27, last sentence: a step that clears a sticky bit is a reset or a well-formed INIT. -/
def Obligations.StickyBitsClearedOnlyByInitOrReset : Prop :=
  ∀ (s t : State) (p : Nat), step s = .next t → 4 ≤ p → p < 8 →
    s.status.getLsbD p = true → t.status.getLsbD p = false →
    (∃ rest, s.host = .assertReset :: rest) ∨
    ∃ f, decode f = .command .init ∧
      (s.seq.activity = some (.accepted f) ∨
        (s.seq.activity = none ∧ ∃ rest, s.host = .send f :: rest))

/-! ### Decoding -/

/-- A few headers of R62 written out, and what they decode to. -/
def Obligations.SpecHeadersDecode : Prop :=
  decode ⟨0b0000000000000001, []⟩ = .command .init ∧
  decode ⟨0b0000000000000010, []⟩ = .command (.rdsr 0) ∧
  decode ⟨0b0001011100100011, []⟩ = .command (.iota 23) ∧
  decode ⟨0b0000001100101000, []⟩ = .command (.round 3) ∧
  decode ⟨0b0000000000110000, []⟩ = .command .perm ∧
  decode ⟨0b0000000001000001, [true]⟩ = .command (.hash [true]) ∧
  decode ⟨0b0000000000000000, []⟩ = .illegal .unassignedOpcode

/-- R71, R63, R65: the five steps of the decoding order, on the header as a number
`rsv·8192 + imm·256 + op`. -/
def Obligations.DecodeFollowsOrder : Prop :=
  ∀ f : Frame,
    let h := f.hdr.toNat
    let known := [0x01, 0x02, 0x10, 0x11, 0x20, 0x21, 0x22, 0x23, 0x28, 0x30, 0x40, 0x41]
    let immBound := if h % 256 = 0x23 ∨ h % 256 = 0x28 then 23 else 0
    let mustBeEmpty := ¬(h % 256 = 0x10 ∨ h % 256 = 0x40 ∨ h % 256 = 0x41)
    (8192 ≤ h → decode f = .illegal .reservedBits) ∧
    (h < 8192 → h % 256 ∉ known → decode f = .illegal .unassignedOpcode) ∧
    (h < 8192 → h % 256 ∈ known → immBound < h / 256 →
      decode f = .illegal .immediateOutOfRange) ∧
    (h < 8192 → h % 256 ∈ known → h / 256 ≤ immBound → mustBeEmpty → f.payload ≠ [] →
      decode f = .illegal .unexpectedPayload) ∧
    (h < 8192 → h % 256 ∈ known → h / 256 ≤ immBound → (mustBeEmpty → f.payload = []) →
      ∃ i, decode f = .command i ∧ i.opcode.value.toNat = h % 256 ∧ i.imm.toNat = h / 256 ∧
        i.payload = f.payload)

/-- R61, R62: decoding the encoding of a well-formed instruction gives it back, every operand at every
value. -/
def Obligations.DecodeOfEncode : Prop :=
  ∀ i : Instr, i.wf = true → decode (encode i) = .command i

/-- R71, R62: a frame that decodes to an instruction is that instruction's encoding, and the
instruction is well formed: every frame has one meaning. -/
def Obligations.EncodeOfDecode : Prop :=
  ∀ (f : Frame) (i : Instr), decode f = .command i → i.wf = true ∧ encode i = f

/-! ### System and codec commands -/

/-- R170: INIT, header 0x0001. -/
def Obligations.InitClearsBlock : Prop :=
  decode ⟨0x0001, []⟩ = .command .init ∧
  ∀ s : State, ∃ t, exec .init s = .next t ∧ t.S = 0 ∧ t.status = 0 ∧
    t.responses = s.responses ++ [⟨0, []⟩] ∧ Outside s t

/-- R171: RDSR n, header 0x0002 + 256·n. -/
def Obligations.RdsrReturnsStatus : Prop :=
  decode ⟨0x0002, []⟩ = .command (.rdsr 0) ∧
  (∀ n : BitVec 5, n ≠ 0 →
    decode ⟨BitVec.ofNat 16 (0x0002 + 256 * n.toNat), []⟩ = .illegal .immediateOutOfRange) ∧
  (∀ s : State, ∃ t payload, exec (.rdsr 0) s = .next t ∧ t.S = s.S ∧ t.status = s.status ∧
    t.responses = s.responses ++ [⟨0, payload⟩] ∧ Outside s t ∧ payload.length = 32 ∧
    (∀ p < 32, payload[p]? = some (s.status.getLsbD p)) ∧
    (StatusOk s.status → ∀ p < 32, 8 ≤ p → payload[p]? = some false)) ∧
  ∀ (s : State) (n : BitVec 5), n ≠ 0 → ∃ t, exec (.rdsr n) s = .next t ∧ EndsInError s t 4

/-- R83: LDS, header 0x0010. -/
def Obligations.LdsLoadsState : Prop :=
  (∀ bs : Bits, decode ⟨0x0010, bs⟩ = .command (.lds bs)) ∧
  (∀ (s : State) (bs : Bits), bs.length = 1600 →
    ∃ t, exec (.lds bs) s = .next t ∧ EndsOk s t [] ∧
      (∀ p < 1600, bs[p]? = some (t.S.getLsbD p)) ∧
      ∀ (x y : Fin 5) (z : Fin 64), bs[64 * (5 * y.val + x.val) + z.val]? = some (bitAt t.S x y z)) ∧
  ∀ (s : State) (bs : Bits), bs.length ≠ 1600 →
    ∃ t, exec (.lds bs) s = .next t ∧ EndsInError s t 1

/-- R84: STS, header 0x0011. -/
def Obligations.StsReturnsState : Prop :=
  decode ⟨0x0011, []⟩ = .command .sts ∧
  (∀ bs : Bits, bs ≠ [] → decode ⟨0x0011, bs⟩ = .illegal .unexpectedPayload) ∧
  ∀ s : State, ∃ t payload, exec .sts s = .next t ∧ EndsOk s t payload ∧ t.S = s.S ∧
    payload.length = 1600 ∧
    (∀ p < 1600, payload[p]? = some (s.S.getLsbD p)) ∧
    ∀ (x y : Fin 5) (z : Fin 64),
      payload[64 * (5 * y.val + x.val) + z.val]? = some (bitAt s.S x y z)

/-- R82: LDS then STS returns what was loaded; loading what STS returned changes nothing. -/
def Obligations.CodecRoundTrip : Prop :=
  (∀ (s : State) (bs : Bits), bs.length = 1600 →
    ∃ t u, exec (.lds bs) s = .next t ∧ exec .sts t = .next u ∧
      u.responses = t.responses ++ [⟨0, bs⟩]) ∧
  ∀ s : State, ∃ t payload u, exec .sts s = .next t ∧
    t.responses = s.responses ++ [⟨0, payload⟩] ∧ exec (.lds payload) t = .next u ∧ u.S = s.S

/-! ### The step transformations -/

/-- R90, R91: THETA, header 0x0020. -/
def Obligations.ThetaMixesColumns : Prop :=
  decode ⟨0x0020, []⟩ = .command .theta ∧
  ∀ s : State, ∃ t, exec .theta s = .next t ∧ EndsOk s t [] ∧
    ∀ (x y : Fin 5) (z : Fin 64),
      let C (x : Fin 5) (z : Fin 64) : Bool :=
        bitAt s.S x 0 z ^^ bitAt s.S x 1 z ^^ bitAt s.S x 2 z ^^ bitAt s.S x 3 z ^^ bitAt s.S x 4 z
      bitAt t.S x y z = (bitAt s.S x y z ^^ (C (x - 1) z ^^ C (x + 1) (z - 1)))

/-- R93 (a), (b): theta is linear over xor, and fixes a state whose columns all have even parity. -/
def Obligations.ThetaIsLinear : Prop :=
  (∀ A B : StateReg, theta (A ^^^ B) = theta A ^^^ theta B) ∧
  ∀ A : StateReg, (∀ x : Fin 5,
    lane A x 0 ^^^ lane A x 1 ^^^ lane A x 2 ^^^ lane A x 3 ^^^ lane A x 4 = 0) → theta A = A

/-- R95, R98, R100: rho rotates lane (x,y) by OFFSET[x][y] toward higher z, pi moves lanes, and RhoPi
is pi after rho. -/
def Obligations.RhoThenPi : Prop :=
  (∀ (A : StateReg) (x y : Fin 5) (z : Fin 64),
    bitAt (rho A) x y z = bitAt A x y (z - Fin.ofNat 64 (offset x y)).val) ∧
  (∀ (A : StateReg) (x y : Fin 5) (z : Fin 64), bitAt (pi A) x y z = bitAt A (x + 3 * y) x z) ∧
  ∀ A : StateReg, rhoPi A = pi (rho A)

/-- R101 with the tables of R96 and R99 by lane number: RHOPI, header 0x0021. The offsets are from
general knowledge (R96, notes/assumptions/2.md). -/
def Obligations.RhopiMovesLanes : Prop :=
  decode ⟨0x0021, []⟩ = .command .rhopi ∧
  ∀ s : State, ∃ t, exec .rhopi s = .next t ∧ EndsOk s t [] ∧
    ∀ (i z src off : Nat), i < 25 → z < 64 →
      [0, 6, 12, 18, 24, 3, 9, 10, 16, 22, 1, 7, 13, 19, 20, 4, 5, 11, 17, 23, 2, 8, 14, 15, 21][i]?
        = some src →
      [0, 1, 62, 28, 27, 36, 44, 6, 55, 20, 3, 10, 43, 25, 39, 41, 45, 15, 21, 8, 18, 2, 61, 56, 14][src]?
        = some off →
      t.S.getLsbD (64 * i + z) = s.S.getLsbD (64 * src + (z + 64 - off) % 64)

/-- R101: RHOPI only moves bits: one bijection of the 1600 positions, the same for every state. -/
def Obligations.RhopiPermutesPositions : Prop :=
  ∃ move : Fin 1600 → Fin 1600, Function.Bijective move ∧
    ∀ (A : StateReg) (p : Fin 1600), (rhoPi A).getLsbD p = A.getLsbD (move p)

/-- R105, R106: CHI, header 0x0022. -/
def Obligations.ChiMixesRows : Prop :=
  decode ⟨0x0022, []⟩ = .command .chi ∧
  ∀ s : State, ∃ t, exec .chi s = .next t ∧ EndsOk s t [] ∧
    ∀ (x y : Fin 5) (z : Fin 64), bitAt t.S x y z =
      (bitAt s.S x y z ^^ (!bitAt s.S (x + 1) y z && bitAt s.S (x + 2) y z))

/-- R134, R107: chi is injective (each row is mapped by one injective map of five bits). -/
def Obligations.ChiIsInjective : Prop := ∀ A B : StateReg, chi A = chi B → A = B

/-- R110, R111, R112, R113: IOTA ir, header 0x0023 + 256·ir, with the rows (ir, RC[ir]) of the
table of R110 written out: one row for each of 0..23. -/
def Obligations.IotaInjectsConstant : Prop :=
  let table : List (Nat × Nat) := [
    (0, 0x0000000000000001), (1, 0x0000000000008082), (2, 0x800000000000808A),
    (3, 0x8000000080008000), (4, 0x000000000000808B), (5, 0x0000000080000001),
    (6, 0x8000000080008081), (7, 0x8000000000008009), (8, 0x000000000000008A),
    (9, 0x0000000000000088), (10, 0x0000000080008009), (11, 0x000000008000000A),
    (12, 0x000000008000808B), (13, 0x800000000000008B), (14, 0x8000000000008089),
    (15, 0x8000000000008003), (16, 0x8000000000008002), (17, 0x8000000000000080),
    (18, 0x000000000000800A), (19, 0x800000008000000A), (20, 0x8000000080008081),
    (21, 0x8000000000008080), (22, 0x0000000080000001), (23, 0x8000000080008008)]
  (∀ ir : BitVec 5, decode ⟨BitVec.ofNat 16 (0x0023 + 256 * ir.toNat), []⟩ =
    if ir.toNat ≤ 23 then .command (.iota ir) else .illegal .immediateOutOfRange) ∧
  (table.map Prod.fst = List.range 24) ∧
  (∀ (s : State) (ir : BitVec 5) (k : Nat), (ir.toNat, k) ∈ table →
    ∃ t, exec (.iota ir) s = .next t ∧ EndsOk s t [] ∧
      (∀ z : Fin 64, bitAt t.S 0 0 z = (bitAt s.S 0 0 z ^^ decide (k / 2 ^ z.val % 2 = 1))) ∧
      ∀ (x y : Fin 5) (z : Fin 64), (x, y) ≠ (0, 0) → bitAt t.S x y z = bitAt s.S x y z) ∧
  ∀ (s : State) (ir : BitVec 5), 23 < ir.toNat →
    ∃ t, exec (.iota ir) s = .next t ∧ EndsInError s t 4

/-- R114: IOTA twice with one index restores `S`; 6 and 20 have the same effect, as have 5 and 22. -/
def Obligations.IotaTwiceRestores : Prop :=
  (∀ (s : State) (ir : BitVec 5), ir.toNat ≤ 23 →
    ∃ t u, exec (.iota ir) s = .next t ∧ exec (.iota ir) t = .next u ∧ u.S = s.S) ∧
  (∀ s : State, exec (.iota 6) s = exec (.iota 20) s) ∧
  ∀ s : State, exec (.iota 5) s = exec (.iota 22) s

/-! ### The round and the permutation -/

/-- R120, R122, R70: ROUND ir, header 0x0028 + 256·ir, has the effect of THETA, RHOPI, CHI, IOTA ir. -/
def Obligations.RoundIsFourSteps : Prop :=
  (∀ ir : BitVec 5, decode ⟨BitVec.ofNat 16 (0x0028 + 256 * ir.toNat), []⟩ =
    if ir.toNat ≤ 23 then .command (.round ir) else .illegal .immediateOutOfRange) ∧
  (∀ (s : State) (ir : BitVec 5), ir.toNat ≤ 23 →
    ∃ t a b c d, exec (.round ir) s = .next t ∧ EndsOk s t [] ∧
      exec .theta s = .next a ∧ exec .rhopi a = .next b ∧ exec .chi b = .next c ∧
      exec (.iota ir) c = .next d ∧ t.S = d.S ∧ t.status = d.status) ∧
  ∀ (s : State) (ir : BitVec 5), 23 < ir.toNat →
    ∃ t, exec (.round ir) s = .next t ∧ EndsInError s t 4

/-- R130, R132, R70: PERM, header 0x0030, has the effect of ROUND 0, ROUND 1, ..., ROUND 23 in this
order. -/
def Obligations.PermIsTwentyFourRounds : Prop :=
  decode ⟨0x0030, []⟩ = .command .perm ∧
  ∀ s : State, ∃ (t : State) (run : Nat → State), exec .perm s = .next t ∧ EndsOk s t [] ∧
    run 0 = s ∧ (∀ ir < 24, exec (.round (BitVec.ofNat 5 ir)) (run ir) = .next (run (ir + 1))) ∧
    t.S = (run 24).S ∧ t.status = (run 24).status

/-- R70: the pseudo-instructions ROUNDS and STEPS have the effects of PERM and ROUND ir on `S`. -/
def Obligations.PseudoInstrsAgree : Prop :=
  (∀ s : State, ∃ t u, exec .perm s = .next t ∧ runInstrs rounds s = .next u ∧ u.S = t.S) ∧
  ∀ (s : State) (ir : BitVec 5), ir.toNat ≤ 23 →
    ∃ t u, exec (.round ir) s = .next t ∧ runInstrs (steps ir) s = .next u ∧ u.S = t.S

/-- R133, R130: PERMB as the document's function: three responses with code 0, the last one carrying
the permuted sequence, which is left in `S`; or, for a wrong length, one response with code 1. -/
def Obligations.PermbIsTheFunction : Prop :=
  (∀ (s : State) (bs : Bits), bs.length = 1600 →
    ∃ t out, runInstrs (permb bs) s = .next t ∧
      t.responses = s.responses ++ [⟨0, []⟩, ⟨0, []⟩, ⟨0, out⟩] ∧ out.length = 1600 ∧
      ∃ loaded permuted, exec (.lds bs) s = .next loaded ∧ exec .perm loaded = .next permuted ∧
        (∀ p < 1600, out[p]? = some (permuted.S.getLsbD p)) ∧ t.S = permuted.S) ∧
  ∀ (s : State) (bs : Bits), bs.length ≠ 1600 →
    ∃ t, runInstrs (permb bs) s = .next t ∧ EndsInError s t 1

/-! ### The sponge -/

/-- R141, R142: the padding law and its cases. -/
def Obligations.PaddingLaw : Prop :=
  (∀ r m : Nat, 0 < r → ∃ j, pad r m = [true] ++ List.replicate j false ++ [true] ∧ j < r ∧
    (m + 2 + j) % r = 0) ∧
  (∀ r m : Nat, 0 < r → (m + (pad r m).length) % r = 0 ∧ 2 ≤ (pad r m).length ∧
    (pad r m).length ≤ r + 1) ∧
  (∀ r m : Nat, 2 ≤ r → m % r = 0 → (pad r m).length = r) ∧
  (∀ r m : Nat, 2 ≤ r → m % r = r - 2 → pad r m = [true, true]) ∧
  (∀ r m : Nat, 2 ≤ r → m % r = r - 1 → (pad r m).length = r + 1) ∧
  ∀ m : Nat, pad 1 m = [true, true]

/-- R143, R144, R145, R150: SPONGE, header 0x0040. In a valid configuration there are the running
states `T 0 = 0, ..., T n`, each the permutation of the one before XORed with a block of the padded
message; `T n` is left in `S` and its first `d` bits are the response. In an invalid configuration:
InvalidParameter. -/
def Obligations.SpongeAbsorbsPaddedMessage : Prop :=
  (∀ N : Bits, decode ⟨0x0040, N⟩ = .command (.sponge N)) ∧
  (∀ (s : State) (N : Bits), s.cfg.c < 1600 → s.cfg.d ≤ 1600 - s.cfg.c →
    ∃ (t : State) (n : Nat) (T : Nat → StateReg) (digest : Bits),
      exec (.sponge N) s = .next t ∧ EndsOk s t digest ∧
      N.length + 2 ≤ n * (1600 - s.cfg.c) ∧ n * (1600 - s.cfg.c) < N.length + 2 + (1600 - s.cfg.c) ∧
      T 0 = 0 ∧
      (∀ i < n, ∃ X : StateReg, T (i + 1) = keccakP X ∧
        ∀ p < 1600, X.getLsbD p = ((T i).getLsbD p ^^
          (decide (p < 1600 - s.cfg.c) &&
            (let q := i * (1600 - s.cfg.c) + p
             if h : q < N.length then N[q]
             else decide (q = N.length ∨ q + 1 = n * (1600 - s.cfg.c)))))) ∧
      t.S = T n ∧ digest.length = s.cfg.d ∧
      ∀ p < s.cfg.d, digest[p]? = some ((T n).getLsbD p)) ∧
  ∀ (s : State) (N : Bits), (1600 ≤ s.cfg.c ∨ 1600 - s.cfg.c < s.cfg.d) →
    ∃ t, exec (.sponge N) s = .next t ∧ EndsInError s t 2

/-- R151, R149, R153, R183, R186: HASH, header 0x0041: SPONGE of the message with the suffix 0, 1;
InvalidParameter in an invalid configuration, whatever the payload; otherwise EncodingError when the
payload is not a whole number of bytes. -/
def Obligations.HashIsSuffixedSponge : Prop :=
  (∀ M : Bits, decode ⟨0x0041, M⟩ = .command (.hash M)) ∧
  (∀ (s : State) (M : Bits), s.cfg.c < 1600 → s.cfg.d ≤ 1600 - s.cfg.c → M.length % 8 = 0 →
    ∃ t digest, exec (.hash M) s = .next t ∧ exec (.sponge (M ++ [false, true])) s = .next t ∧
      EndsOk s t digest ∧ digest.length = s.cfg.d) ∧
  (∀ (s : State) (M : Bits), (1600 ≤ s.cfg.c ∨ 1600 - s.cfg.c < s.cfg.d) →
    ∃ t, exec (.hash M) s = .next t ∧ EndsInError s t 2) ∧
  ∀ (s : State) (M : Bits), s.cfg.c < 1600 → s.cfg.d ≤ 1600 - s.cfg.c → M.length % 8 ≠ 0 →
    ∃ t, exec (.hash M) s = .next t ∧ EndsInError s t 3

/-- R144, R49: the old content of `S` has no influence on SPONGE and HASH. -/
def Obligations.HashIgnoresOldState : Prop :=
  ∀ (s s' : State) (N : Bits), s.cfg = s'.cfg → s.cfg.c < 1600 → s.cfg.d ≤ 1600 - s.cfg.c →
    (∃ t t' r, exec (.sponge N) s = .next t ∧ exec (.sponge N) s' = .next t' ∧ t.S = t'.S ∧
      t.responses = s.responses ++ [r] ∧ t'.responses = s'.responses ++ [r]) ∧
    ∃ t t' r, exec (.hash N) s = .next t ∧ exec (.hash N) s' = .next t' ∧
      t.responses = s.responses ++ [r] ∧ t'.responses = s'.responses ++ [r] ∧
      (N.length % 8 = 0 → t.S = t'.S)

/-- R156: for a message of `k` bytes in the shipped configuration, suffix and padding together are the
bytes 06 00 ... 00 80, or the one byte 86, and fill the last of `k div 136 + 1` blocks. -/
def Obligations.HashPaddingBytes : Prop :=
  ∀ B : List (BitVec 8),
    let q := 136 - B.length % 136
    let bits := withSuffix (bytesToBits B)
    padded (rate Config.shipped) bits =
      bytesToBits (B ++ (if q = 1 then [0x86#8]
        else [0x06#8] ++ List.replicate (q - 2) 0x00#8 ++ [0x80#8])) ∧
    (blocks (rate Config.shipped) (padded (rate Config.shipped) bits)).length = B.length / 136 + 1

/-- R45, R148, R152: bytes are unpacked least significant bit first, and packed back by the same rule. -/
def Obligations.BytesUnpackAndPack : Prop :=
  ∀ B : List (BitVec 8),
    (bytesToBits B).length = 8 * B.length ∧
    (∀ (j i : Nat) (b : BitVec 8), i < 8 → B[j]? = some b →
      (bytesToBits B)[8 * j + i]? = some (decide (b.toNat / 2 ^ i % 2 = 1))) ∧
    bitsToBytes (bytesToBits B) = B

/-- R46: as bytes, `S` is its lanes in order, each lane little-endian. -/
def Obligations.LanesAreLittleEndian : Prop :=
  ∀ (A : StateReg) (x y : Fin 5) (k : Nat), k < 8 →
    (bitsToBytes (toBits A))[8 * (5 * y.val + x.val) + k]? =
      some ((lane A x y).extractLsb' (8 * k) 8)

/-! ### Rules over all commands -/

/-- R190, R65, R66, R60: every command frame, a malformed one too, is answered by exactly one response;
a non-zero code comes with an empty payload, `S` unchanged, LASTCODE and the sticky bit of the code
written and nothing else. -/
def Obligations.ErrorsArePrecise : Prop :=
  ∀ (f : Frame) (s : State), ∃ t r, runFrame f s = .next t ∧ t.responses = s.responses ++ [r] ∧
    r.code.toNat ≤ 4 ∧ (r.code ≠ 0 → EndsInError s t r.code.toNat)

/-- R27 (a) to (e): how STATUS changes, over all command frames, malformed ones too, and reset. -/
def Obligations.StatusFollowsOutcome : Prop :=
  (∀ (f : Frame) (s t : State) (r : Response), runFrame f s = .next t →
    t.responses = s.responses ++ [r] →
    (r.code = 0 → decode f ≠ .command .init → (∀ n, decode f ≠ .command (.rdsr n)) →
      ∀ p < 32, t.status.getLsbD p = (decide (4 ≤ p) && s.status.getLsbD p)) ∧
    (r.code ≠ 0 → ErrorStatus s t r.code.toNat) ∧
    (r.code = 0 → (∃ n, decode f = .command (.rdsr n)) → t.status = s.status) ∧
    (r.code = 0 → decode f = .command .init → t.status = 0)) ∧
  ∀ (s t : State) (rest : List HostMove), s.host = .assertReset :: rest → step s = .next t →
    t.status = 0

/-- R192, R147, R62: the payload length of every response: with code 0 the command's own, with any
other code none. -/
def Obligations.ResponseLengthsFixed : Prop :=
  ∀ (i : Instr) (s : State), ∃ t r, exec i s = .next t ∧ t.responses = s.responses ++ [r] ∧
    r.payload.length =
      if r.code ≠ 0 then 0
      else match i with
        | .rdsr _ => 32
        | .sts => 1600
        | .sponge _ => s.cfg.d
        | .hash _ => s.cfg.d
        | .init | .lds _ | .theta | .rhopi | .chi | .iota _ | .round _ | .perm => 0

/-- R131, R147, R49: but for RDSR, the new `S` and the response depend on `S` and the operands alone,
with SPONGE and HASH also on the configuration; not on STATUS, the hidden state or an earlier command. -/
def Obligations.ResultsIgnoreHistory : Prop :=
  ∀ (i : Instr) (s s' : State), (∀ n, i ≠ .rdsr n) → s.S = s'.S →
    (∀ N, i = .sponge N ∨ i = .hash N → s.cfg = s'.cfg) →
    ∃ t t' r, exec i s = .next t ∧ exec i s' = .next t' ∧ t.S = t'.S ∧
      t.responses = s.responses ++ [r] ∧ t'.responses = s'.responses ++ [r]

/-- R49: repeating INIT, LDS, STS, RDSR, SPONGE or HASH with the same operands leaves the same `S` and
the same STATUS. -/
def Obligations.RepeatingIsIdempotent : Prop :=
  ∀ (i : Instr) (s : State),
    i.opcode ∈ [Opcode.init, .lds, .sts, .rdsr, .sponge, .hash] →
    ∃ t u, exec i s = .next t ∧ exec i t = .next u ∧ u.S = t.S ∧ u.status = t.status

/-! ### The finer-step view -/

/-- R125: the sequencer, started by ROUND ir, takes its beginning, four stages and the response, and
leaves exactly the state the atomic command leaves; hidden state idle. The number of steps is the
model's (notes/assumptions/7.md). -/
def Obligations.SequencerRunsRound : Prop :=
  ∀ (s : State) (ir : BitVec 5), ir.toNat ≤ 23 →
    ∃ t, exec (.round ir) s = .next t ∧ t.seq = Seq.idle ∧
      advanceN 6 (accept (encode (.round ir)) s) = .next t

/-- R125, R126: the same for PERM: its beginning, 24 rounds of 4 stages, the response
(notes/assumptions/7.md). -/
def Obligations.SequencerRunsPerm : Prop :=
  ∀ s : State, ∃ t, exec .perm s = .next t ∧ t.seq = Seq.idle ∧
    advanceN (1 + 24 * 4 + 1) (accept (encode .perm) s) = .next t

/-- R155, R126: SPONGE in finer steps: its beginning, for each of the n blocks of the padded message an
XOR and 96 stages, then the response; the number of steps depends on the payload length alone
(notes/assumptions/7.md). -/
def Obligations.SequencerRunsSponge : Prop :=
  ∀ (s : State) (N : Bits) (n : Nat), s.cfg.c < 1600 → s.cfg.d ≤ 1600 - s.cfg.c →
    N.length + 2 ≤ n * (1600 - s.cfg.c) →
    n * (1600 - s.cfg.c) < N.length + 2 + (1600 - s.cfg.c) →
    ∃ t, exec (.sponge N) s = .next t ∧
      advanceN (1 + n * (1 + 96) + 1) (accept (encode (.sponge N)) s) = .next t

/-- R125, R14, R15: for EVERY frame and from every state, the finer steps of the command end, and end
in the very state the one-step command leaves. -/
def Obligations.FinerStepsAgreeWithOneStep : Prop :=
  ∀ (s : State) (f : Frame), ∃ n t, runFrame f s = .next t ∧ t.seq = Seq.idle ∧
    advanceN n (accept f s) = .next t

/-- R121, R124, R214: a stage step changes exactly one stage in the fixed order, and the round index
moves only in the IOTA stage, by one (back to 0 after the last; notes/assumptions/7.md). -/
def Obligations.StagesFollowFixedOrder : Prop :=
  ∀ (s t : State) (last : Fin 24),
    (s.seq.activity = some (.rounds last) ∨ s.seq.activity = some (.absorbRounds last)) →
    s.seq.rnd ≤ last → advance s = .next t →
    (s.seq.stg = .theta → t.seq.stg = .rhopi ∧ t.S = theta s.S) ∧
    (s.seq.stg = .rhopi → t.seq.stg = .chi ∧ t.S = rhoPi s.S) ∧
    (s.seq.stg = .chi → t.seq.stg = .iota ∧ t.S = chi s.S) ∧
    (s.seq.stg = .iota → t.seq.stg = .theta ∧ t.S = iota s.S s.seq.rnd ∧
      t.seq.rnd.val = if s.seq.rnd = last then 0 else s.seq.rnd.val + 1) ∧
    (s.seq.stg ≠ .iota → t.seq.rnd = s.seq.rnd ∧ t.seq.activity = s.seq.activity)

/-- R216, R15: the busy period always ends: from every state that meets the invariant, finitely many
finer steps lead to a block that is ready. -/
def Obligations.BusyPeriodEnds : Prop :=
  ∀ s : State, StateInv s → ∃ n t, advanceN n s = .next t ∧ t.seq.activity = none

/-! ### The finer steps as the machine takes them -/

/-- R14, R216: when the block is ready and the host sends a frame to be seen in finer steps, the step
accepts it: the block is busy with that frame, nothing else has changed but the move taken off the list
(notes/assumptions/6.md, 7.md). -/
def Obligations.StepAcceptsSteppedFrame : Prop :=
  ∀ (s : State) (f : Frame) (rest : List HostMove),
    s.seq.activity = none → s.host = .sendStepped f :: rest →
    ∃ t, step s = .next t ∧ t = accept f { s with host := rest } ∧
      t.seq.activity = some (.accepted f) ∧ t.S = s.S ∧ t.status = s.status ∧ t.cfg = s.cfg ∧
      t.responses = s.responses ∧ t.received = s.received ∧ t.host = rest

/-- R216, R15: the wait of a host that offers a frame, or has no move left, ends: from every state that
meets the invariant, finitely many steps of the machine lead to a block that is ready, the frame still
offered. -/
def Obligations.StepsEndBusyPeriod : Prop :=
  ∀ s : State, StateInv s → OffersFrame s.host →
    ∃ n t, Host.Core.run core n s = .next t ∧ t.seq.activity = none ∧ t.host = s.host

/-- R14, R125: a frame sent to be seen in finer steps ends, by steps of the machine, in the very state
the one-step command leaves, whatever frame is offered next. -/
def Obligations.StepsOfSteppedFrameAgree : Prop :=
  ∀ (s : State) (f : Frame) (rest : List HostMove),
    s.seq.activity = none → s.host = .sendStepped f :: rest → OffersFrame rest →
    ∃ n t, runFrame f { s with host := rest } = .next t ∧ Host.Core.run core n s = .next t
end

