-- ==== Sys2Proof/Laws/Codec.lean ====
section
/-! SUPPORT. Bits of sequences, lanes and the state register: what a proof needs to go from the lane
form the model computes with to positions and coordinates (spec/40_state_codec.md R80, R81). -/

namespace Sys2Proof.Machine

/-! ### Sequences and registers -/

theorem testBit_bitsToNat (bs : Bits) (p : Nat) : (bitsToNat bs).testBit p = bs[p]?.getD false := by
  induction bs generalizing p with
  | nil => simp [bitsToNat]
  | cons b bs ih =>
    cases p with
    | zero => cases b <;> simp [bitsToNat, Nat.testBit_zero]
    | succ p =>
      have half : (b.toNat + 2 * bitsToNat bs) / 2 = bitsToNat bs := by
        cases b <;> simp; omega
      simp [bitsToNat, Nat.testBit_succ, half, ih]

theorem getLsbD_ofBits (w : Nat) (bs : Bits) (p : Nat) :
    (ofBits w bs).getLsbD p = (decide (p < w) && bs[p]?.getD false) := by
  rw [ofBits, BitVec.getLsbD, BitVec.toNat_ofNat, Nat.testBit_mod_two_pow, testBit_bitsToNat]

@[simp] theorem length_toBits {w : Nat} (v : BitVec w) : (toBits v).length = w := by simp [toBits]

theorem getElem?_toBits {w : Nat} (v : BitVec w) (p : Nat) (h : p < w) :
    (toBits v)[p]? = some (v.getLsbD p) := by simp [toBits, h]

/-- A register read from a sequence of its own width gives that sequence back. -/
theorem toBits_ofBits (w : Nat) (bs : Bits) (h : bs.length = w) : toBits (ofBits w bs) = bs := by
  subst h
  apply List.ext_getElem <;> simp [toBits, getLsbD_ofBits]
  intro i hi; simp [hi]

/-- A sequence read from a register gives that register back. -/
theorem ofBits_toBits {w : Nat} (v : BitVec w) : ofBits w (toBits v) = v := by
  apply BitVec.eq_of_getLsbD_eq
  intro i hi
  rw [getLsbD_ofBits, getElem?_toBits v i hi, Option.getD_some, decide_eq_true hi, Bool.true_and]

/-! ### Lanes and positions -/

theorem pos_lt (x y : Fin 5) (z : Nat) (h : z < 64) : pos x y z < 1600 := by
  have := x.isLt; have := y.isLt; simp only [pos]; omega

theorem getLsbD_lane (A : StateReg) (x y : Fin 5) (z : Nat) :
    (lane A x y).getLsbD z = (decide (z < 64) && bitAt A x y z) := by
  simp [lane, bitAt, pos]

theorem getLsbD_assemble (f : Nat → Lane) (n p : Nat) (h : p < 1600) :
    (assemble f n).getLsbD p = (decide (p < 64 * n) && (f (p / 64)).getLsbD (p % 64)) := by
  induction n with
  | zero => simp [assemble]
  | succ n ih =>
    simp only [assemble, BitVec.getLsbD_or, ih, BitVec.getLsbD_shiftLeft, BitVec.getLsbD_setWidth, h,
      decide_true, Bool.true_and]
    by_cases below : p < 64 * n
    · have : p < 64 * (n + 1) := by omega
      simp [below, this]
    · by_cases here : p < 64 * (n + 1)
      · have q : p / 64 = n := by omega
        have r : p - 64 * n = p % 64 := by omega
        have w : p % 64 < 1600 := by omega
        simp [below, here, q, r, w]
      · have hi : 64 ≤ p - 64 * n := by omega
        simp [below, here, BitVec.getLsbD_of_ge _ _ hi]

/-- Position `64·i + z` of a register given by lanes is bit `z` of lane number `i`. -/
theorem getLsbD_ofLanes (f : Fin 5 → Fin 5 → Lane) (p : Nat) (h : p < 1600) :
    (ofLanes f).getLsbD p =
      (f (Fin.ofNat 5 (p / 64)) (Fin.ofNat 5 (p / 64 / 5))).getLsbD (p % 64) := by
  rw [ofLanes, getLsbD_assemble _ _ _ h]
  simp [show p < 64 * 25 by omega]

/-- The coordinate form of `getLsbD_ofLanes`. -/
theorem bitAt_ofLanes (f : Fin 5 → Fin 5 → Lane) (x y : Fin 5) (z : Nat) (h : z < 64) :
    bitAt (ofLanes f) x y z = (f x y).getLsbD z := by
  have hx := x.isLt; have hy := y.isLt
  rw [bitAt, getLsbD_ofLanes _ _ (pos_lt x y z h)]
  have a : pos x y z / 64 = 5 * y.val + x.val := by simp only [pos]; omega
  have b : pos x y z % 64 = z := by simp only [pos]; omega
  have c : (5 * y.val + x.val) / 5 = y.val := by omega
  have e : Fin.ofNat 5 (5 * y.val + x.val) = x := by apply Fin.ext; simp [Fin.ofNat]
  have g : Fin.ofNat 5 y.val = y := by apply Fin.ext; simp [Fin.ofNat]
  rw [a, b, c, e, g]

theorem lane_ofLanes (f : Fin 5 → Fin 5 → Lane) (x y : Fin 5) : lane (ofLanes f) x y = f x y := by
  apply BitVec.eq_of_getLsbD_eq
  intro i hi
  rw [getLsbD_lane, bitAt_ofLanes _ _ _ _ hi, decide_eq_true hi, Bool.true_and]

/-- Two register values with the same array are equal. -/
theorem ext_bitAt {A B : StateReg} (h : ∀ (x y : Fin 5) (z : Nat), z < 64 → bitAt A x y z = bitAt B x y z) :
    A = B := by
  apply BitVec.eq_of_getLsbD_eq
  intro p hp
  have := h ⟨p / 64 % 5, by omega⟩ ⟨p / 320, by omega⟩ (p % 64) (by omega)
  simp only [bitAt, pos] at this
  rwa [show 64 * (5 * (p / 320) + p / 64 % 5) + p % 64 = p by omega] at this

theorem getLsbD_rotl (v : Lane) (n z : Nat) (hn : n < 64) (hz : z < 64) :
    (rotl v n).getLsbD z = v.getLsbD ((z + (64 - n)) % 64) := by
  rw [rotl, BitVec.getLsbD_rotateLeft]
  by_cases h : z < n
  · simp [Nat.mod_eq_of_lt hn, h, show (z + (64 - n)) % 64 = 64 - n + z by omega]
  · simp [Nat.mod_eq_of_lt hn, h, hz, show (z + (64 - n)) % 64 = z - n by omega]

theorem roundIndex_of_le (imm : BitVec 5) (h : imm.toNat ≤ 23) :
    roundIndex imm = some ⟨imm.toNat, by omega⟩ := by
  simp [roundIndex, show imm.toNat < 24 by omega]

theorem roundIndex_of_gt (imm : BitVec 5) (h : 23 < imm.toNat) : roundIndex imm = none := by
  simp [roundIndex, show ¬imm.toNat < 24 by omega]

end Sys2Proof.Machine
end

