-- ==== Sys2Proof/Laws/Decoding.lean ====
section
/-! SUPPORT. The header fields as numbers, and the decoder once its four checks are decided
(spec/30_encoding.md R61, R71). -/

namespace Sys2Proof

theorem toNat_hdrOp (h : Header) : (hdrOp h).toNat = h.toNat % 256 := by simp [hdrOp]

theorem toNat_hdrImm (h : Header) : (hdrImm h).toNat = h.toNat / 256 % 32 := by
  simp [hdrImm, Nat.shiftRight_eq_div_pow]

theorem toNat_hdrRsv (h : Header) : (hdrRsv h).toNat = h.toNat / 8192 := by
  have := h.isLt
  simp [hdrRsv, Nat.shiftRight_eq_div_pow]; omega

/-- A header is made of its three fields. -/
theorem mkHeader_fields (h : Header) : mkHeader (hdrRsv h) (hdrImm h) (hdrOp h) = h := by
  apply BitVec.eq_of_getLsbD_eq
  intro i hi
  rw [mkHeader, BitVec.getLsbD_append, BitVec.getLsbD_append, hdrOp, hdrImm, hdrRsv,
    BitVec.getLsbD_extractLsb', BitVec.getLsbD_extractLsb', BitVec.getLsbD_extractLsb']
  by_cases a : i < 8
  · simp [a]
  · by_cases b : i - 8 < 5
    · simp [a, b, show 8 + (i - 8) = i by omega]
    · simp [a, b, show 13 + (i - 8 - 5) = i by omega, show i - 8 - 5 < 3 by omega]

theorem opcodeOf_value (o : Opcode) : opcodeOf o.value = some o := by cases o <;> rfl

theorem value_of_opcodeOf (op : BitVec 8) (o : Opcode) (h : opcodeOf op = some o) : o.value = op := by
  revert op; cases o <;> decide

/-- The decoder when the reserved bits are zero and the opcode is known. -/
theorem decode_of_opcode (f : Frame) (o : Opcode) (rsv : hdrRsv f.hdr = 0)
    (op : opcodeOf (hdrOp f.hdr) = some o) :
    decode f =
      if o.immLegal (hdrImm f.hdr) = false then .illegal .immediateOutOfRange
      else if o.takesPayload = false ∧ f.payload ≠ [] then .illegal .unexpectedPayload
      else .command (o.instr (hdrImm f.hdr) f.payload) := by
  simp [decode, rsv, op]

end Sys2Proof
end

