-- ==== Sys2Proof/Laws/State.lean ====
section
/-! SUPPORT. The fields of the state after each named update: one lemma per field per update, so that
no proof unfolds a record update. -/

namespace Sys2Proof.Machine

/-! ### setS -/

@[simp] theorem State.setS_S (s : State) (v : StateReg) :
    (s.setS v).S = v := rfl
@[simp] theorem State.setS_status (s : State) (v : StateReg) :
    (s.setS v).status = s.status := rfl
@[simp] theorem State.setS_seq (s : State) (v : StateReg) :
    (s.setS v).seq = s.seq := rfl
@[simp] theorem State.setS_cfg (s : State) (v : StateReg) :
    (s.setS v).cfg = s.cfg := rfl
@[simp] theorem State.setS_host (s : State) (v : StateReg) :
    (s.setS v).host = s.host := rfl
@[simp] theorem State.setS_responses (s : State) (v : StateReg) :
    (s.setS v).responses = s.responses := rfl
@[simp] theorem State.setS_received (s : State) (v : StateReg) :
    (s.setS v).received = s.received := rfl

/-! ### setStatus -/

@[simp] theorem State.setStatus_S (s : State) (v : StatusReg) :
    (s.setStatus v).S = s.S := rfl
@[simp] theorem State.setStatus_status (s : State) (v : StatusReg) :
    (s.setStatus v).status = v := rfl
@[simp] theorem State.setStatus_seq (s : State) (v : StatusReg) :
    (s.setStatus v).seq = s.seq := rfl
@[simp] theorem State.setStatus_cfg (s : State) (v : StatusReg) :
    (s.setStatus v).cfg = s.cfg := rfl
@[simp] theorem State.setStatus_host (s : State) (v : StatusReg) :
    (s.setStatus v).host = s.host := rfl
@[simp] theorem State.setStatus_responses (s : State) (v : StatusReg) :
    (s.setStatus v).responses = s.responses := rfl
@[simp] theorem State.setStatus_received (s : State) (v : StatusReg) :
    (s.setStatus v).received = s.received := rfl

/-! ### setSeq -/

@[simp] theorem State.setSeq_S (s : State) (q : Seq) :
    (s.setSeq q).S = s.S := rfl
@[simp] theorem State.setSeq_status (s : State) (q : Seq) :
    (s.setSeq q).status = s.status := rfl
@[simp] theorem State.setSeq_seq (s : State) (q : Seq) :
    (s.setSeq q).seq = q := rfl
@[simp] theorem State.setSeq_cfg (s : State) (q : Seq) :
    (s.setSeq q).cfg = s.cfg := rfl
@[simp] theorem State.setSeq_host (s : State) (q : Seq) :
    (s.setSeq q).host = s.host := rfl
@[simp] theorem State.setSeq_responses (s : State) (q : Seq) :
    (s.setSeq q).responses = s.responses := rfl
@[simp] theorem State.setSeq_received (s : State) (q : Seq) :
    (s.setSeq q).received = s.received := rfl

/-! ### setHost -/

@[simp] theorem State.setHost_S (s : State) (h : List HostMove) :
    (s.setHost h).S = s.S := rfl
@[simp] theorem State.setHost_status (s : State) (h : List HostMove) :
    (s.setHost h).status = s.status := rfl
@[simp] theorem State.setHost_seq (s : State) (h : List HostMove) :
    (s.setHost h).seq = s.seq := rfl
@[simp] theorem State.setHost_cfg (s : State) (h : List HostMove) :
    (s.setHost h).cfg = s.cfg := rfl
@[simp] theorem State.setHost_host (s : State) (h : List HostMove) :
    (s.setHost h).host = h := rfl
@[simp] theorem State.setHost_responses (s : State) (h : List HostMove) :
    (s.setHost h).responses = s.responses := rfl
@[simp] theorem State.setHost_received (s : State) (h : List HostMove) :
    (s.setHost h).received = s.received := rfl

/-! ### push -/

@[simp] theorem State.push_S (s : State) (r : Response) :
    (s.push r).S = s.S := rfl
@[simp] theorem State.push_status (s : State) (r : Response) :
    (s.push r).status = s.status := rfl
@[simp] theorem State.push_seq (s : State) (r : Response) :
    (s.push r).seq = s.seq := rfl
@[simp] theorem State.push_cfg (s : State) (r : Response) :
    (s.push r).cfg = s.cfg := rfl
@[simp] theorem State.push_host (s : State) (r : Response) :
    (s.push r).host = s.host := rfl
@[simp] theorem State.push_responses (s : State) (r : Response) :
    (s.push r).responses = s.responses ++ [r] := rfl
@[simp] theorem State.push_received (s : State) (r : Response) :
    (s.push r).received = s.received := rfl

/-! ### resetBlock -/

@[simp] theorem State.resetBlock_S (s : State) :
    (s.resetBlock).S = 0 := rfl
@[simp] theorem State.resetBlock_status (s : State) :
    (s.resetBlock).status = 0 := rfl
@[simp] theorem State.resetBlock_seq (s : State) :
    (s.resetBlock).seq = Seq.idle := rfl
@[simp] theorem State.resetBlock_cfg (s : State) :
    (s.resetBlock).cfg = s.cfg := rfl
@[simp] theorem State.resetBlock_host (s : State) :
    (s.resetBlock).host = s.host := rfl
@[simp] theorem State.resetBlock_responses (s : State) :
    (s.resetBlock).responses = s.responses := rfl
@[simp] theorem State.resetBlock_received (s : State) :
    (s.resetBlock).received = s.received := rfl

/-! ### takeResponse -/

@[simp] theorem State.takeResponse_S (s : State) (r : Response) (rest : List Response) :
    (s.takeResponse r rest).S = s.S := rfl
@[simp] theorem State.takeResponse_status (s : State) (r : Response) (rest : List Response) :
    (s.takeResponse r rest).status = s.status := rfl
@[simp] theorem State.takeResponse_seq (s : State) (r : Response) (rest : List Response) :
    (s.takeResponse r rest).seq = s.seq := rfl
@[simp] theorem State.takeResponse_cfg (s : State) (r : Response) (rest : List Response) :
    (s.takeResponse r rest).cfg = s.cfg := rfl
@[simp] theorem State.takeResponse_host (s : State) (r : Response) (rest : List Response) :
    (s.takeResponse r rest).host = s.host := rfl
@[simp] theorem State.takeResponse_responses (s : State) (r : Response) (rest : List Response) :
    (s.takeResponse r rest).responses = rest := rfl
@[simp] theorem State.takeResponse_received (s : State) (r : Response) (rest : List Response) :
    (s.takeResponse r rest).received = s.received ++ [r] := rfl

/-! ### respond -/

@[simp] theorem State.respond_S (s : State) (c : BitVec 4) (p : Bits) :
    (s.respond c p).S = s.S := rfl
@[simp] theorem State.respond_status (s : State) (c : BitVec 4) (p : Bits) :
    (s.respond c p).status = s.status := rfl
@[simp] theorem State.respond_seq (s : State) (c : BitVec 4) (p : Bits) :
    (s.respond c p).seq = Seq.idle := rfl
@[simp] theorem State.respond_cfg (s : State) (c : BitVec 4) (p : Bits) :
    (s.respond c p).cfg = s.cfg := rfl
@[simp] theorem State.respond_host (s : State) (c : BitVec 4) (p : Bits) :
    (s.respond c p).host = s.host := rfl
@[simp] theorem State.respond_responses (s : State) (c : BitVec 4) (p : Bits) :
    (s.respond c p).responses = s.responses ++ [{ code := c, payload := p }] := rfl
@[simp] theorem State.respond_received (s : State) (c : BitVec 4) (p : Bits) :
    (s.respond c p).received = s.received := rfl

/-! ### succeed -/

@[simp] theorem State.succeed_S (s : State) (p : Bits) :
    (s.succeed p).S = s.S := rfl
@[simp] theorem State.succeed_status (s : State) (p : Bits) :
    (s.succeed p).status = statusOk s.status := rfl
@[simp] theorem State.succeed_seq (s : State) (p : Bits) :
    (s.succeed p).seq = Seq.idle := rfl
@[simp] theorem State.succeed_cfg (s : State) (p : Bits) :
    (s.succeed p).cfg = s.cfg := rfl
@[simp] theorem State.succeed_host (s : State) (p : Bits) :
    (s.succeed p).host = s.host := rfl
@[simp] theorem State.succeed_responses (s : State) (p : Bits) :
    (s.succeed p).responses = s.responses ++ [{ code := 0, payload := p }] := rfl
@[simp] theorem State.succeed_received (s : State) (p : Bits) :
    (s.succeed p).received = s.received := rfl

/-! ### raise -/

@[simp] theorem State.raise_S (s : State) (e : Error) :
    (s.raise e).S = s.S := rfl
@[simp] theorem State.raise_status (s : State) (e : Error) :
    (s.raise e).status = statusError s.status e := rfl
@[simp] theorem State.raise_seq (s : State) (e : Error) :
    (s.raise e).seq = Seq.idle := rfl
@[simp] theorem State.raise_cfg (s : State) (e : Error) :
    (s.raise e).cfg = s.cfg := rfl
@[simp] theorem State.raise_host (s : State) (e : Error) :
    (s.raise e).host = s.host := rfl
@[simp] theorem State.raise_responses (s : State) (e : Error) :
    (s.raise e).responses = s.responses ++ [{ code := e.code, payload := [] }] := rfl
@[simp] theorem State.raise_received (s : State) (e : Error) :
    (s.raise e).received = s.received := rfl

end Sys2Proof.Machine
end

