-- ==== Sys2Proof/Laws/Ops.lean ====
section
/-! SUPPORT. Once for each shared operation, everything it does: STATUS bit by bit, the end of a
command with success and with an error. -/

namespace Sys2Proof.Machine

theorem getLsbD_setLastCode (st : StatusReg) (code : BitVec 4) (p : Nat) (h : p < 32) :
    (setLastCode st code).getLsbD p = if p < 4 then code.getLsbD p else st.getLsbD p := by
  rw [setLastCode, BitVec.getLsbD_append]
  by_cases low : p < 4
  · simp [low]
  · simp [low, show p - 4 < 28 by omega, show 4 + (p - 4) = p by omega]

/-- STATUS after success (R27 (a)). -/
theorem getLsbD_statusOk (st : StatusReg) (p : Nat) (h : p < 32) :
    (statusOk st).getLsbD p = (decide (4 ≤ p) && st.getLsbD p) := by
  rw [statusOk, getLsbD_setLastCode _ _ _ h]
  by_cases low : p < 4
  · simp [low, show ¬4 ≤ p by omega]
  · simp [low, show 4 ≤ p by omega]

/-- STATUS after an error (R27 (b)). -/
theorem getLsbD_statusError (st : StatusReg) (e : Error) (p : Nat) (h : p < 32) :
    (statusError st e).getLsbD p =
      if p < 4 then e.code.toNat.testBit p
      else (decide (p = 3 + e.code.toNat) || st.getLsbD p) := by
  rw [statusError, BitVec.getLsbD_or, getLsbD_setLastCode _ _ _ h, BitVec.getLsbD_shiftLeft]
  by_cases low : p < 4
  · have : p < e.stickyBit := by cases e <;> simp [Error.stickyBit, Error.code] <;> omega
    simp [low, this, BitVec.getLsbD]
  · simp only [low, if_false, h, decide_true, Bool.true_and, Error.stickyBit, BitVec.getLsbD_one]
    by_cases at_ : p = 3 + e.code.toNat
    · simp [at_]
    · by_cases lo : p < 3 + e.code.toNat
      · simp [at_, lo]
      · simp [at_, lo, show ¬p - (3 + e.code.toNat) = 0 by omega]

/-- `succeed` is exactly a successful end of a command. -/
theorem endsOk_succeed (s : State) (v : StateReg) (payload : Bits) :
    EndsOk s ((s.setS v).succeed payload) payload :=
  ⟨fun p h => getLsbD_statusOk s.status p h, rfl, rfl, rfl, rfl, rfl⟩

/-- `succeed` without a write of `S`. -/
theorem endsOk_succeed_same (s : State) (payload : Bits) : EndsOk s (s.succeed payload) payload :=
  endsOk_succeed s s.S payload

/-- `raise` is exactly an error entry (R190). -/
theorem endsInError_raise (s : State) (e : Error) : EndsInError s (s.raise e) e.code.toNat :=
  ⟨rfl, fun p h => getLsbD_statusError s.status e p h, by simp, rfl, rfl, rfl, rfl⟩

/-- Reset keeps nothing of the block but its configuration (R211, R220). -/
theorem resetBlock_eq (s : State) :
    s.resetBlock = { s with S := 0, status := 0, seq := Seq.idle } := rfl

end Sys2Proof.Machine
end

