-- ==== Sys2Proof/Laws/Exec.lean ====
section
/-! SUPPORT. What `exec` can answer, said once over all twelve commands: INIT's cleared block, RDSR's
status, a success of `succeed`, or an error of `raise`; and IOTA and ROUND with a
legal round index. -/

namespace Sys2Proof.Machine

theorem cfgValid_iff (cfg : Config) :
    cfgValid cfg = true ↔ cfg.c < 1600 ∧ cfg.d ≤ 1600 - cfg.c := by simp [cfgValid]

/-- IOTA with a legal round index (R113). -/
theorem exec_iota_legal (s : State) (ir : BitVec 5) (h : ir.toNat ≤ 23) :
    exec (.iota ir) s = .next ((s.setS (iota s.S ⟨ir.toNat, by omega⟩)).succeed []) := by
  simp only [exec, execIota, roundIndex_of_le ir h]

/-- ROUND with a legal round index (R122). -/
theorem exec_round_legal (s : State) (ir : BitVec 5) (h : ir.toNat ≤ 23) :
    exec (.round ir) s = .next ((s.setS (rnd s.S ⟨ir.toNat, by omega⟩)).succeed []) := by
  simp only [exec, execRound, roundIndex_of_le ir h]

/-- Every answer of `exec`. -/
theorem exec_cases (i : Instr) (s : State) :
    (i = .init ∧ exec i s = .next (((s.setS 0).setStatus 0).respond 0 [])) ∨
    (i = .rdsr 0 ∧ exec i s = .next (s.respond 0 (toBits s.status))) ∨
    (i ≠ .init ∧ (∀ n, i ≠ .rdsr n) ∧
      ∃ v payload, exec i s = .next ((s.setS v).succeed payload)) ∨
    (i ≠ .init ∧ ∃ e, exec i s = .next (s.raise e)) := by
  cases i with
  | init => exact .inl ⟨rfl, rfl⟩
  | rdsr n =>
    by_cases h : n = 0
    · subst h; exact .inr (.inl ⟨rfl, rfl⟩)
    · exact .inr (.inr (.inr ⟨nofun, .illegalCommand, by rw [exec, execRdsr, if_neg h]⟩))
  | lds bs =>
    by_cases h : bs.length = 1600
    · exact .inr (.inr (.inl ⟨nofun, nofun, _, _, (by rw [exec, execLds, if_pos h])⟩))
    · exact .inr (.inr (.inr ⟨nofun, .invalidInputLength, by rw [exec, execLds, if_neg h]⟩))
  | sts => exact .inr (.inr (.inl ⟨nofun, nofun, s.S, _, rfl⟩))
  | theta => exact .inr (.inr (.inl ⟨nofun, nofun, _, _, rfl⟩))
  | rhopi => exact .inr (.inr (.inl ⟨nofun, nofun, _, _, rfl⟩))
  | chi => exact .inr (.inr (.inl ⟨nofun, nofun, _, _, rfl⟩))
  | perm => exact .inr (.inr (.inl ⟨nofun, nofun, _, _, rfl⟩))
  | iota ir =>
    by_cases h : ir.toNat ≤ 23
    · exact .inr (.inr (.inl ⟨nofun, nofun, _, _, (exec_iota_legal s ir h)⟩))
    · exact .inr (.inr (.inr ⟨nofun, .illegalCommand,
        by simp only [exec, execIota, roundIndex_of_gt ir (by omega)]⟩))
  | round ir =>
    by_cases h : ir.toNat ≤ 23
    · exact .inr (.inr (.inl ⟨nofun, nofun, _, _, (exec_round_legal s ir h)⟩))
    · exact .inr (.inr (.inr ⟨nofun, .illegalCommand,
        by simp only [exec, execRound, roundIndex_of_gt ir (by omega)]⟩))
  | sponge n =>
    by_cases h : cfgValid s.cfg = false
    · exact .inr (.inr (.inr ⟨nofun, .invalidParameter, by rw [exec, execSponge, if_pos h]⟩))
    · exact .inr (.inr (.inl ⟨nofun, nofun, _, _, (by rw [exec, execSponge, if_neg h]; rfl)⟩))
  | hash m =>
    by_cases h : cfgValid s.cfg = false
    · exact .inr (.inr (.inr ⟨nofun, .invalidParameter, by rw [exec, execHash, if_pos h]⟩))
    · by_cases g : m.length % 8 ≠ 0
      · exact .inr (.inr (.inr ⟨nofun, .encodingError, by rw [exec, execHash, if_neg h, if_pos g]⟩))
      · exact .inr (.inr (.inl ⟨nofun, nofun, _, _, (by rw [exec, execHash, if_neg h, if_neg g]; rfl)⟩))

end Sys2Proof.Machine
end

