-- ==== Sys2Proof/Laws/PerInstr.lean ====
section
/-! SUPPORT. The family HeaderFields: what the three header fields of an encoded instruction are
(spec/30_encoding.md R61), one lemma per constructor. -/

namespace Sys2Proof.Laws.HeaderFields

/-- The fields of the encoded header are the reserved zeros, the immediate and the opcode. -/
def Statement (i : Instr) : Prop :=
  hdrRsv (encode i).hdr = 0 ∧ hdrImm (encode i).hdr = i.imm ∧ hdrOp (encode i).hdr = i.opcode.value

/-- A header with zero reserved bits has the fields it was made of. -/
theorem fields_of_mkHeader (imm : BitVec 5) (o : Opcode) :
    hdrRsv (mkHeader 0 imm o.value) = 0 ∧ hdrImm (mkHeader 0 imm o.value) = imm ∧
      hdrOp (mkHeader 0 imm o.value) = o.value := by
  revert imm; cases o <;> decide

theorem init : Statement .init := fields_of_mkHeader _ .init
theorem rdsr (n : BitVec 5) : Statement (.rdsr n) := fields_of_mkHeader n .rdsr
theorem lds (s : Bits) : Statement (.lds s) := fields_of_mkHeader _ .lds
theorem sts : Statement .sts := fields_of_mkHeader _ .sts
theorem theta : Statement .theta := fields_of_mkHeader _ .theta
theorem rhopi : Statement .rhopi := fields_of_mkHeader _ .rhopi
theorem chi : Statement .chi := fields_of_mkHeader _ .chi
theorem iota (ir : BitVec 5) : Statement (.iota ir) := fields_of_mkHeader ir .iota
theorem round (ir : BitVec 5) : Statement (.round ir) := fields_of_mkHeader ir .round
theorem perm : Statement .perm := fields_of_mkHeader _ .perm
theorem sponge (n : Bits) : Statement (.sponge n) := fields_of_mkHeader _ .sponge
theorem hash (m : Bits) : Statement (.hash m) := fields_of_mkHeader _ .hash

end Sys2Proof.Laws.HeaderFields
end

