-- ==== Sys2Proof/Laws/Sequencer.lean ====
section
/-! SUPPORT. The finer steps: how a busy block goes on, how runs of finer steps and of steps compose, and what
`stageStep` answers in each stage. -/

namespace Sys2Proof.Machine

theorem advance_of_activity (s : State) (a : Activity) (h : s.seq.activity = some a) :
    advance s = fineStep a s := by simp [advance, h]

theorem advanceN_succ_of_advance (s t : State) (n : Nat) (h : advance s = .next t) :
    advanceN (n + 1) s = advanceN n t := by rw [advanceN, h]

/-- Runs of finer steps compose. -/
theorem advanceN_add (m n : Nat) (s t : State) (h : advanceN m s = .next t) :
    advanceN (m + n) s = advanceN n t := by
  induction m generalizing s with
  | zero => simp [advanceN] at h; subst h; simp
  | succ m ih =>
    rw [show m + 1 + n = (m + n) + 1 by omega, advanceN]
    rw [advanceN] at h
    split at h
    · rename_i u _; exact ih u h
    · cases h
    · cases h

/-- A run of the machine begins with a step. -/
theorem core_run_succ (n : Nat) (s t : State) (h : step s = .next t) :
    Host.Core.run core (n + 1) s = Host.Core.run core n t := by
  have h' : core.step s = .next t := h
  simp only [Host.Core.run]
  rw [h']

theorem stageStep_theta (last : Fin 24) (f : State → State) (s : State) (h : s.seq.stg = .theta) :
    stageStep last f s = (s.setS (theta s.S)).setSeq { s.seq with stg := .rhopi } := by
  rw [stageStep, h]

theorem stageStep_rhopi (last : Fin 24) (f : State → State) (s : State) (h : s.seq.stg = .rhopi) :
    stageStep last f s = (s.setS (rhoPi s.S)).setSeq { s.seq with stg := .chi } := by
  rw [stageStep, h]

theorem stageStep_chi (last : Fin 24) (f : State → State) (s : State) (h : s.seq.stg = .chi) :
    stageStep last f s = (s.setS (chi s.S)).setSeq { s.seq with stg := .iota } := by
  rw [stageStep, h]

theorem stageStep_iota (last : Fin 24) (f : State → State) (s : State) (h : s.seq.stg = .iota) :
    stageStep last f s =
      if s.seq.rnd = last then
        f ((s.setS (iota s.S s.seq.rnd)).setSeq { s.seq with stg := .theta, rnd := 0 })
      else (s.setS (iota s.S s.seq.rnd)).setSeq { s.seq with stg := .theta, rnd := s.seq.rnd + 1 } := by
  rw [stageStep, h]

/-- The rounds of `keccakP` written out. -/
theorem finRange_rounds : List.finRange 24 =
    [0, 1, 2, 3, 4, 5, 6, 7, 8, 9, 10, 11, 12, 13, 14, 15, 16, 17, 18, 19, 20, 21, 22, 23] := by decide

end Sys2Proof.Machine
end

