-- ==== Sys2Proof/Tests/Slice0.lean ====
section
/-! SUPPORT. Tests: well-formedness, one word per command written out from the spec's patterns, one or
two single steps per command with results from the spec's own vectors, and for every obligation with
hypotheses concrete states and operands that meet them. -/

set_option Elab.async false

namespace Sys2Proof.Tests

open Sys2Proof Sys2Proof.Machine

/-! ### Helpers -/

/-- The next state, none at a stop. -/
def stateOf : Result → Option State
  | .next t => some t
  | .fault _ => none
  | .refused _ => none

/-- A register value by its lanes L[0], L[1], ...; lanes not listed are 0. -/
def lanes (l : List Lane) : StateReg := assemble (fun i => l.getD i 0) 25

/-- The reset state with a register value. -/
def start (A : StateReg) : State := State.reset.setS A

/-- The state after the step that takes this frame, the block ready before it. -/
def send (hdr : Header) (payload : Bits) (s : State) : Option State :=
  stateOf (step (s.setHost [.send ⟨hdr, payload⟩]))

/-- `S` after that step. -/
def sAfter (hdr : Header) (payload : Bits) (s : State) : Option StateReg :=
  (send hdr payload s).map State.S

/-- STATUS, the code and the payload length of the newest response after that step. -/
def report (hdr : Header) (payload : Bits) (s : State) : Option (StatusReg × List (Nat × Nat)) :=
  (send hdr payload s).map fun t =>
    (t.status, t.responses.map fun r => (r.code.toNat, r.payload.length))

/-- The hexadecimal text of the newest response's payload. -/
def hexAfter (hdr : Header) (payload : Bits) (s : State) : Option String :=
  (send hdr payload s).map fun t =>
    String.ofList (hexText (bitsToBytes ((t.responses.getLast?.map Response.payload).getD [])))

/-! ### Well-formedness (R63): each check refuses an ill-formed term -/

theorem test_wf_rdsr : (Instr.rdsr 0).wf = true ∧ (Instr.rdsr 1).wf = false := by decide
theorem test_wf_iota : (Instr.iota 23).wf = true ∧ (Instr.iota 24).wf = false := by decide
theorem test_wf_round : (Instr.round 23).wf = true ∧ (Instr.round 24).wf = false := by decide

/-! ### Decoding: the patterns of R62, written out bit by bit -/

theorem test_word_init : decode ⟨0b0000000000000001, []⟩ = .command .init := by decide
theorem test_word_rdsr : decode ⟨0b0000000000000010, []⟩ = .command (.rdsr 0) := by decide
theorem test_word_lds : decode ⟨0b0000000000010000, [true]⟩ = .command (.lds [true]) := by decide
theorem test_word_sts : decode ⟨0b0000000000010001, []⟩ = .command .sts := by decide
theorem test_word_theta : decode ⟨0b0000000000100000, []⟩ = .command .theta := by decide
theorem test_word_rhopi : decode ⟨0b0000000000100001, []⟩ = .command .rhopi := by decide
theorem test_word_chi : decode ⟨0b0000000000100010, []⟩ = .command .chi := by decide
theorem test_word_iota : decode ⟨0b0001011100100011, []⟩ = .command (.iota 23) := by decide
theorem test_word_round : decode ⟨0b0001001000101000, []⟩ = .command (.round 18) := by decide
theorem test_word_perm : decode ⟨0b0000000000110000, []⟩ = .command .perm := by decide
theorem test_word_sponge :
    decode ⟨0b0000000001000000, [true, false]⟩ = .command (.sponge [true, false]) := by decide
theorem test_word_hash : decode ⟨0b0000000001000001, []⟩ = .command (.hash []) := by decide

/-- E1, E2, E11, E10, E15 of spec/96_programs_and_errors.md: a frame per decoding check. -/
theorem test_words_illegal :
    decode ⟨0x2001, []⟩ = .illegal .reservedBits ∧
    decode ⟨0x0000, []⟩ = .illegal .unassignedOpcode ∧
    decode ⟨0x1823, []⟩ = .illegal .immediateOutOfRange ∧
    decode ⟨0x0102, []⟩ = .illegal .immediateOutOfRange ∧
    decode ⟨0x0020, [true]⟩ = .illegal .unexpectedPayload := by decide

/-- The host's table word of LDS: 1600 zero payload bits are added (notes/assumptions/9.md). -/
theorem test_table_word_lds :
    decodeTableWord 16 0x0010 = some (.lds (List.replicate 1600 false)) := by decide +kernel

/-! ### Single steps -/

/-- R170: INIT clears `S` and the sticky bits. -/
theorem test_init_clears :
    (send 0x0001 [] ((start (lanes [5])).setStatus 0x84)).map (fun t => (t.S, t.status)) =
      some (0, 0) := by decide +kernel

/-- R171, the example: after a failed LDS, RDSR returns 0x00000011. -/
theorem test_rdsr_example :
    hexAfter 0x0002 [] ((start 0).setStatus 0x11) = some "11000000" := by decide +kernel

/-- R83, the example: `LDS x"01" ‖ 0^1592` leaves L[0] = 1. -/
theorem test_lds_first_bit :
    sAfter 0x0010 (true :: List.replicate 1599 false) (start (lanes [7, 7])) = some (lanes [1]) := by
  decide +kernel

/-- E18: 1599 bits are refused with code 1, STATUS 0x11. -/
theorem test_lds_short :
    report 0x0010 (List.replicate 1599 true) (start 0) = some (0x11, [(1, 0)]) := by decide +kernel

/-- R45, R46: STS gives lane 0 as eight little-endian bytes, then lane 1. -/
theorem test_sts_bytes :
    (send 0x0011 [] (start (lanes [0x0000000006636261, 0xFF]))).map (fun t =>
      t.responses.map fun r => bitsToBytes (r.payload.take 72)) =
      some [[0x61, 0x62, 0x63, 0x06, 0, 0, 0, 0, 0xFF]] := by decide +kernel

/-- R91, the example: the single bit A[0,0,0]. -/
theorem test_theta_single_bit :
    sAfter 0x0020 [] (start (lanes [1])) =
      some (lanes [1, 1, 0, 0, 2, 0, 1, 0, 0, 2, 0, 1, 0, 0, 2, 0, 1, 0, 0, 2, 0, 1, 0, 0, 2]) := by
  decide +kernel

/-- V3 with R99: L[2] = 1 is rotated by 62 and moves to lane 20; L[2] = 8 wraps to bit 1. -/
theorem test_rhopi_direction :
    sAfter 0x0021 [] (start (lanes [0, 0, 1])) =
      some (lanes (List.replicate 20 0 ++ [0x4000000000000000])) ∧
    sAfter 0x0021 [] (start (lanes [0, 0, 8])) = some (lanes (List.replicate 20 0 ++ [2])) := by
  decide +kernel

/-- V6: every lane 1. -/
theorem test_rhopi_every_lane :
    sAfter 0x0021 [] (start (lanes (List.replicate 25 1))) = some (lanes
      [0x0000000000000001, 0x0000100000000000, 0x0000080000000000, 0x0000000000200000,
       0x0000000000004000, 0x0000000010000000, 0x0000000000100000, 0x0000000000000008,
       0x0000200000000000, 0x2000000000000000, 0x0000000000000002, 0x0000000000000040,
       0x0000000002000000, 0x0000000000000100, 0x0000000000040000, 0x0000000008000000,
       0x0000001000000000, 0x0000000000000400, 0x0000000000008000, 0x0100000000000000,
       0x4000000000000000, 0x0080000000000000, 0x0000008000000000, 0x0000020000000000,
       0x0000000000000004]) := by decide +kernel

/-- R96: the walk that generates the offsets, t = 0, ..., 23. -/
theorem test_offsets_walk :
    ((List.range 24).foldl (fun (a : Bool × Fin 5 × Fin 5) t =>
      (a.1 && offset a.2.1 a.2.2 == (t + 1) * (t + 2) / 2 % 64, a.2.2, 2 * a.2.1 + 3 * a.2.2))
      (offset 0 0 == 0, 1, 0)).1 = true := by decide

/-- R110: the rows stand in the order of their index. -/
theorem test_round_constant_rows : roundConstantRows.toList.map Prod.fst = List.range 24 := by decide

/-- R106, the example: row y = 1. -/
theorem test_chi_row :
    sAfter 0x0022 [] (start (lanes [0, 0, 0, 0, 0, 1, 2, 4, 8, 0x10])) =
      some (lanes [0, 0, 0, 0, 0, 5, 0xA, 0x14, 9, 0x12]) := by decide +kernel

/-- I2: xor, not or. -/
theorem test_iota_xor :
    sAfter 0x0323 [] (start (lanes [0xFFFFFFFFFFFFFFFF, 9])) =
      some (lanes [0x7FFFFFFF7FFF7FFF, 9]) := by decide +kernel

/-- I5, E11: index 24. -/
theorem test_iota_24 : report 0x1823 [] (start (lanes [3])) = some (0x84, [(4, 0)]) := by
  decide +kernel

/-- N1, N2: ROUND 1 on L[0] = 1. -/
theorem test_round_1 :
    sAfter 0x0128 [] (start (lanes [1])) = some (lanes
      [0x0000000000008083, 0x0000100000000000, 0x0000000000008000, 0x0000000000000001,
       0x0000100000008000, 0x0000000000000000, 0x0000200000200000, 0x0000000000000000,
       0x0000200000000000, 0x0000000000200000, 0x0000000000000002, 0x0000000000000200,
       0x0000000000000000, 0x0000000000000202, 0x0000000000000000, 0x0000000010000400,
       0x0000000000000000, 0x0000000000000400, 0x0000000010000000, 0x0000000000000000,
       0x0000010000000000, 0x0000000000000000, 0x0000010000000004, 0x0000000000000000,
       0x0000000000000004]) := by decide +kernel

/-- K1: the permutation of zero, lanes 0, 1 and 24. -/
theorem test_perm_zero :
    (sAfter 0x0030 [] (start 0)).map (fun A => (lane A 0 0, lane A 1 0, lane A 4 4)) =
      some (0xF1258F7940E1DDE7, 0x84D5CCF933C0478A, 0xEAF1FF7B5CECA249) := by decide +kernel

/-- Q2: the message `1100101`. -/
theorem test_sponge_q2 :
    hexAfter 0x0040 [true, true, false, false, true, false, true] (start (lanes [1])) =
      some "7B0047CF5A456882363CBF0FB05322CF65F4B7059A46365E830132E3B5D957AF" := by decide +kernel

/-- H3: the three bytes `abc`. -/
theorem test_hash_abc :
    hexAfter 0x0041 (bytesToBits [0x61, 0x62, 0x63]) (start 0) =
      some "3A985DA74FE225B2045C172D6BD390BD855F086E3E9D525B46BFE24511431532" := by decide +kernel

/-- E21: a ragged payload. -/
theorem test_hash_ragged : report 0x0041 [true] (start 0) = some (0x43, [(3, 0)]) := by
  decide +kernel

/-- R69: the example `x"616263"` has 24 bits, and R83's `x"01" ‖ 0^1592` has 1600. -/
theorem test_payload_notes :
    noteText (.bytes [0x61, 0x62, 0x63]) = "x\"616263\"" ∧
    (payloadOfNote (.bytes [0x61, 0x62, 0x63])).length = 24 ∧
    (payloadOfNote (.join (.bytes [0x01]) (.zeros 1592))).take 2 = [true, false] ∧
    commandText (.sponge [true, true, false]) = "SPONGE b\"110\"" := by decide +kernel

/-! ### Witnesses: the hypotheses of the obligations can be met -/

/-- A command in progress, before its frame is decoded. -/
def busy : State := (start (lanes [5])).setSeq { Seq.idle with activity := some (.accepted ⟨0x30, []⟩) }

theorem witness_ResetAbandonsCommand :
    (busy.setHost [.assertReset, .receive]).host = .assertReset :: [.receive] ∧
      (stateOf (step (busy.setHost [.assertReset, .receive]))).map (fun t => (t.S, t.responses)) =
        some (0, []) := by decide +kernel

/-- The four heads of the host's list that leave a busy block to itself, and a pause: each step begins
the command in progress, PERM, and only the pause is taken off. -/
theorem witness_BusyBlockHoldsFrame :
    busy.seq.activity = some (.accepted ⟨0x30, []⟩) ∧ busy.responses = [] ∧
    (([[], [.send ⟨0x11, []⟩], [.sendStepped ⟨0x11, []⟩], [.receive], [.pause]] :
        List (List HostMove)).map fun h =>
      (stateOf (step (busy.setHost h))).map fun t => (t.seq.activity, t.host.length)) =
      [some (some (.rounds 23), 0), some (some (.rounds 23), 1), some (some (.rounds 23), 1),
       some (some (.rounds 23), 1), some (some (.rounds 23), 0)] := by decide +kernel

theorem witness_OffersFrame :
    OffersFrame [] ∧ OffersFrame [.send ⟨0x11, []⟩] ∧ OffersFrame [.sendStepped ⟨0x11, []⟩] :=
  ⟨.inl rfl, .inr ⟨_, _, .inl rfl⟩, .inr ⟨_, _, .inr rfl⟩⟩

/-- A ready block, no move, a receive with nothing sent, and a pause. -/
theorem witness_WaitingChangesNothing :
    State.reset.seq.activity = none ∧ State.reset.host = [] ∧
    (State.reset.setHost [.receive]).responses = [] ∧
    stateOf (step (State.reset.setHost [.receive])) = some (State.reset.setHost [.receive]) ∧
    stateOf (step (State.reset.setHost [.pause])) = some State.reset := by decide +kernel

/-- The first step accepts the frame, and the second begins its command. -/
theorem witness_StepAcceptsSteppedFrame :
    let s := State.reset.setHost [.sendStepped ⟨0x30, []⟩]
    s.seq.activity = none ∧ s.host = .sendStepped ⟨0x30, []⟩ :: [] ∧
    ((stateOf (step s)).map fun t => (t.seq.activity, t.host)) =
      some (some (.accepted ⟨0x30, []⟩), []) := by decide +kernel

theorem witness_StepsEndBusyPeriod :
    StateInv (busy.setHost [.send ⟨0x11, []⟩]) ∧
      OffersFrame (busy.setHost [.send ⟨0x11, []⟩]).host := by
  refine ⟨?_, .inr ⟨_, _, .inl rfl⟩⟩
  simp only [StateInv, StatusOk, SeqOk, ResponseOk, busy, start, State.reset, Seq.idle,
    State.setSeq, State.setS, State.setHost]
  decide +kernel

theorem witness_ReceiveTakesOldestResponse :
    let s := { State.reset with host := [.receive], responses := [⟨4, []⟩, ⟨0, [true]⟩] }
    s.host = .receive :: [] ∧ s.responses = ⟨4, []⟩ :: [⟨0, [true]⟩] := by decide

theorem witness_StepRunsDecodedInstr :
    let s := State.reset.setHost [.send ⟨0x1723, []⟩]
    s.seq.activity = none ∧ s.host = .send ⟨0x1723, []⟩ :: [] ∧
      decode ⟨0x1723, []⟩ = .command (.iota 23) := by decide

theorem witness_IllegalFrameRaises :
    let s := State.reset.setHost [.send ⟨0xFFFF, [true]⟩]
    s.seq.activity = none ∧ s.host = .send ⟨0xFFFF, [true]⟩ :: [] ∧
      decode ⟨0xFFFF, [true]⟩ = .illegal .reservedBits := by decide

theorem witness_PlacedWordRunsNext :
    decodeTableWord 16 0x1728 = some (.round 23) ∧ decodeTableWord 16 0x1828 = none := by decide

theorem witness_ConfigNeverChanges : (stateOf (step busy)).isSome = true := by decide +kernel

/-- Error of code 4 reported, its sticky bit set, a response on the channel. -/
def erred : State := { State.reset with status := 0x84, responses := [⟨4, []⟩] }

theorem witness_StepKeepsInv : StateInv State.reset ∧ StateInv erred := by
  simp only [StateInv, StatusOk, SeqOk, ResponseOk, erred, State.reset, Seq.idle]
  decide +kernel

theorem witness_StickyBitsCleared :
    erred.status.getLsbD 7 = true ∧
      ((send 0x0001 [] erred).map (fun t => t.status.getLsbD 7)) = some false ∧
      (stateOf (step (erred.setHost [.assertReset]))).map (fun t => t.status.getLsbD 7) =
        some false := by decide +kernel

/-- Headers at the boundaries of the five clauses. -/
theorem witness_DecodeFollowsOrder :
    (0x2000#16).toNat = 8192 ∧ (0x1F41#16).toNat < 8192 ∧
    decode ⟨0x2000, []⟩ = .illegal .reservedBits ∧
    decode ⟨0x1F42, [true]⟩ = .illegal .unassignedOpcode ∧
    decode ⟨0x1828, [true]⟩ = .illegal .immediateOutOfRange ∧
    decode ⟨0x0110, [true]⟩ = .illegal .immediateOutOfRange ∧
    decode ⟨0x1728, [true]⟩ = .illegal .unexpectedPayload ∧
    decode ⟨0x1728, []⟩ = .command (.round 23) ∧
    decode ⟨0x0041, [true]⟩ = .command (.hash [true]) := by decide

theorem witness_DecodeOfEncode :
    (Instr.iota 23).wf = true ∧ (Instr.rdsr 0).wf = true ∧ (Instr.lds [true]).wf = true := by decide

theorem witness_EncodeOfDecode : decode ⟨0x1723, []⟩ = .command (.iota 23) := by decide

theorem witness_RdsrReturnsStatus :
    (1 : BitVec 5) ≠ 0 ∧ (31 : BitVec 5) ≠ 0 ∧ StatusOk 0x84 := by
  refine ⟨by decide, by decide, ?_⟩
  simp only [StatusOk]; decide +kernel

/-- For LdsLoadsState, CodecRoundTrip and PermbIsTheFunction. -/
theorem witness_LdsLoadsState :
    (List.replicate 1600 true : Bits).length = 1600 ∧ (List.replicate 1599 true : Bits).length ≠ 1600 ∧
      (List.replicate 1601 true : Bits).length ≠ 1600 ∧ ([] : Bits).length ≠ 1600 := by
  simp only [List.length_replicate]; decide

theorem witness_StsReturnsState : ([false] : Bits) ≠ [] := by decide

/-- V-type state with even columns: two equal lanes in column x = 0. -/
theorem witness_ThetaIsLinear : ∀ x : Fin 5,
    lane (lanes [5, 0, 0, 0, 0, 5]) x 0 ^^^ lane (lanes [5, 0, 0, 0, 0, 5]) x 1 ^^^
      lane (lanes [5, 0, 0, 0, 0, 5]) x 2 ^^^ lane (lanes [5, 0, 0, 0, 0, 5]) x 3 ^^^
      lane (lanes [5, 0, 0, 0, 0, 5]) x 4 = 0 := by decide +kernel

theorem witness_RhopiMovesLanes :
    ([0, 6, 12, 18, 24, 3, 9, 10, 16, 22, 1, 7, 13, 19, 20, 4, 5, 11, 17, 23, 2, 8, 14, 15, 21] :
      List Nat)[24]? = some 21 ∧
    ([0, 1, 62, 28, 27, 36, 44, 6, 55, 20, 3, 10, 43, 25, 39, 41, 45, 15, 21, 8, 18, 2, 61, 56, 14] :
      List Nat)[21]? = some 2 := by decide

theorem witness_ChiIsInjective : chi 0 = chi 0 := rfl

theorem witness_IotaInjectsConstant :
    ((23 : BitVec 5).toNat, 0x8000000080008008) ∈
      [((22 : Nat), (0x0000000080000001 : Nat)), (23, 0x8000000080008008)] ∧
      23 < (24 : BitVec 5).toNat := by decide

/-- For IotaTwiceRestores, RoundIsFourSteps, PseudoInstrsAgree and SequencerRunsRound. -/
theorem witness_round_index :
    (0 : BitVec 5).toNat ≤ 23 ∧ (23 : BitVec 5).toNat ≤ 23 ∧ 23 < (31 : BitVec 5).toNat := by decide

/-- Table P of spec/95_test_vectors.md: one row for each case of the padding law. -/
theorem witness_PaddingLaw :
    pad 8 0 = [true, false, false, false, false, false, false, true] ∧ pad 8 6 = [true, true] ∧
    (pad 8 7).length = 9 ∧ pad 2 0 = [true, true] ∧ pad 2 1 = [true, false, true] ∧
    pad 1 5 = [true, true] := by decide

/-- The configurations at the edge of R5: c = 1599, d = 1; d = r; c = 1600; d = r + 1. -/
theorem witness_configurations :
    cfgValid ⟨1599, 1⟩ = true ∧ cfgValid ⟨512, 1088⟩ = true ∧ cfgValid ⟨1600, 0⟩ = false ∧
      cfgValid ⟨512, 1089⟩ = false := by decide

/-- For SpongeAbsorbsPaddedMessage and HashIsSuffixedSponge. -/
theorem witness_sponge_valid :
    State.reset.cfg.c < 1600 ∧ State.reset.cfg.d ≤ 1600 - State.reset.cfg.c := by decide

theorem witness_sponge_invalid :
    1600 ≤ ({ State.reset with cfg := ⟨1600, 0⟩ }).cfg.c ∧
      1600 - ({ State.reset with cfg := ⟨512, 1089⟩ }).cfg.c <
        ({ State.reset with cfg := ⟨512, 1089⟩ }).cfg.d := by decide

theorem witness_HashIsSuffixedSponge :
    ([] : Bits).length % 8 = 0 ∧ (List.replicate 7 true : Bits).length % 8 ≠ 0 := by decide

theorem witness_HashIgnoresOldState :
    (start 1).cfg = (start 0).cfg ∧ (start 1).cfg.c < 1600 ∧
      (start 1).cfg.d ≤ 1600 - (start 1).cfg.c := by decide +kernel

/-- R156: k = 0 and k = 135, the two forms of the last bytes. -/
theorem witness_HashPaddingBytes :
    136 - ([] : List (BitVec 8)).length % 136 = 136 ∧
      136 - (List.replicate 135 0x11#8).length % 136 = 1 := by
  simp only [List.length_replicate]; decide

theorem witness_BytesUnpackAndPack :
    ([0x61, 0x62] : List (BitVec 8))[1]? = some 0x62 ∧
      bytesToBits [0x61] = [true, false, false, false, false, true, true, false] := by decide

theorem witness_LanesAreLittleEndian :
    (bitsToBytes (toBits (lanes [0x0000000006636261])))[2]? = some 0x63 := by decide +kernel

/-- Every kind of outcome of R27: success, error, RDSR, INIT, reset. -/
theorem witness_StatusFollowsOutcome :
    (send 0x0011 [] erred).map State.status = some 0x80 ∧
    (send 0x0041 [true] erred).map State.status = some 0xC3 ∧
    (send 0x0102 [] erred).map State.status = some 0x84 ∧
    (send 0x0002 [] erred).map State.status = some 0x84 ∧
    (send 0x0001 [] erred).map State.status = some 0 ∧
    (stateOf (step (erred.setHost [.assertReset]))).map State.status = some 0 := by decide +kernel

/-- The response lengths of R192: none, 32, 1600, d, and none with an error. -/
theorem witness_ResponseLengthsFixed :
    report 0x0020 [] (start 0) = some (0, [(0, 0)]) ∧
    report 0x0002 [] (start 0) = some (0, [(0, 32)]) ∧
    report 0x0011 [] (start 0) = some (0, [(0, 1600)]) ∧
    report 0x0040 [] (start 0) = some (0, [(0, 256)]) ∧
    report 0x0041 [] { start 0 with cfg := ⟨512, 1089⟩ } = some (0x22, [(2, 0)]) := by
  decide +kernel

theorem witness_ResultsIgnoreHistory :
    (∀ n, Instr.perm ≠ .rdsr n) ∧ (start 5).S = ({ erred with S := 5, cfg := ⟨1600, 0⟩ }).S ∧
      (∀ N, Instr.perm = .sponge N ∨ Instr.perm = .hash N →
        (start 5).cfg = ({ erred with S := 5, cfg := ⟨1600, 0⟩ }).cfg) := by
  simp [start]

theorem witness_RepeatingIsIdempotent :
    (Instr.hash []).opcode ∈ [Opcode.init, .lds, .sts, .rdsr, .sponge, .hash] := by decide

/-- R143: a message of 1087 bits takes two blocks, one of 1086 takes one. -/
theorem witness_SequencerRunsSponge :
    let s := State.reset
    let N : Bits := List.replicate 1087 true
    let M : Bits := List.replicate 1086 true
    s.cfg.c < 1600 ∧ s.cfg.d ≤ 1600 - s.cfg.c ∧
      N.length + 2 ≤ 2 * (1600 - s.cfg.c) ∧ 2 * (1600 - s.cfg.c) < N.length + 2 + (1600 - s.cfg.c) ∧
      M.length + 2 ≤ 1 * (1600 - s.cfg.c) ∧ 1 * (1600 - s.cfg.c) < M.length + 2 + (1600 - s.cfg.c) := by
  simp only [List.length_replicate]; decide

/-- A state inside a permutation, at stage `g` of round `k`, round 23 the last. -/
def atStage (g : Stage) (k : Fin 24) : State :=
  (start (lanes [1])).setSeq { Seq.idle with stg := g, rnd := k, activity := some (.rounds 23) }

/-- R124: the round index moves by one after the IOTA stage, and back to 0 after the last. -/
theorem witness_StagesFollowFixedOrder :
    (atStage .iota 22).seq.activity = some (.rounds 23) ∧ (atStage .iota 23).seq.rnd ≤ 23 ∧
    ([Stage.theta, .rhopi, .chi, .iota].map fun g =>
      (stateOf (advance (atStage g 22))).map fun t => (t.seq.stg, t.seq.rnd.val)) =
        [some (.rhopi, 22), some (.chi, 22), some (.iota, 22), some (.theta, 23)] ∧
    (stateOf (advance (atStage .iota 23))).map (fun t => (t.seq.stg, t.seq.rnd.val)) =
      some (.theta, 0) := by
  decide +kernel

theorem witness_BusyPeriodEnds : StateInv busy ∧ StateInv (atStage .iota 23) := by
  simp only [StateInv, StatusOk, SeqOk, ResponseOk, busy, atStage, start, State.reset, Seq.idle,
    State.setSeq, State.setS]
  decide +kernel

/-- R125, R15: PERM in finer steps and in one step, on reset. -/
theorem test_stepped_perm :
    stateOf (advanceN 98 (accept ⟨0x0030, []⟩ State.reset)) =
      stateOf (runFrame ⟨0x0030, []⟩ State.reset) := by decide +kernel

/-- R14, R216: INIT sent to be seen in finer steps is over after two steps of the machine, and the frame
offered next is still offered. -/
theorem witness_StepsOfSteppedFrameAgree :
    let s := (start (lanes [5])).setHost [.sendStepped ⟨0x01, []⟩, .send ⟨0x11, []⟩]
    s.seq.activity = none ∧ s.host = .sendStepped ⟨0x01, []⟩ :: [.send ⟨0x11, []⟩] ∧
    stateOf (Host.Core.run core 2 s) =
      stateOf (runFrame ⟨0x01, []⟩ (s.setHost [.send ⟨0x11, []⟩])) := by decide +kernel

end Sys2Proof.Tests
end

/-! # Scope (spec/00_scope.md): the step of the machine

What a step can do, said once; that every step answers a next state and keeps the configuration; and
that the finer steps of a frame end in the state of the one-step command, first as runs of `advance`,
then as runs of `step`. -/

namespace Sys2Proof.Machine

/-! ### What a command leaves outside the block -/

/-- The configuration and the host's side, the response channel apart, are the same. -/
def SameEnvironment (s t : State) : Prop :=
  t.cfg = s.cfg ∧ t.host = s.host ∧ t.received = s.received

theorem Outside.sameEnvironment {s t : State} (h : Outside s t) : SameEnvironment s t := h.2

theorem exec_outside (i : Instr) (s : State) : ∃ t, exec i s = .next t ∧ Outside s t := by
  obtain ⟨-, h⟩ | ⟨-, h⟩ | ⟨-, -, v, payload, h⟩ | ⟨-, e, h⟩ := exec_cases i s
  · exact ⟨_, h, rfl, rfl, rfl, rfl⟩
  · exact ⟨_, h, rfl, rfl, rfl, rfl⟩
  · exact ⟨_, h, rfl, rfl, rfl, rfl⟩
  · exact ⟨_, h, rfl, rfl, rfl, rfl⟩

theorem runFrame_of_illegal {f : Frame} {why : DecodeError} (h : decode f = .illegal why)
    (s : State) : runFrame f s = .next (s.raise .illegalCommand) := by rw [runFrame, h]

theorem runFrame_of_command {f : Frame} {i : Instr} (h : decode f = .command i) (s : State) :
    runFrame f s = exec i s := by rw [runFrame, h]

theorem runFrame_outside (f : Frame) (s : State) : ∃ t, runFrame f s = .next t ∧ Outside s t := by
  cases h : decode f with
  | illegal why => exact ⟨_, runFrame_of_illegal h s, rfl, rfl, rfl, rfl⟩
  | command i =>
    rw [runFrame_of_command h]
    exact exec_outside i s

/-! ### The rounds of the permutation, from any round on -/

/-- Round `first` and the `more` rounds after it (R120, R124). -/
def runRounds (A : StateReg) (first : Fin 24) : Nat → StateReg
  | 0 => rnd A first
  | more + 1 => runRounds (rnd A first) (first + 1) more

/-- The permutation is round 0 and the 23 rounds after it (R130). -/
theorem runRounds_all (A : StateReg) : runRounds A 0 23 = keccakP A := by
  rw [keccakP, finRange_rounds]; rfl

/-! ### The beginning of a command in finer steps -/

@[simp] theorem State.raise_setSeq (s : State) (q : Seq) (e : Error) :
    (s.setSeq q).raise e = s.raise e := rfl

/-- The hidden state before a command has no influence on it. -/
theorem exec_setSeq (i : Instr) (s : State) (q : Seq) : exec i (s.setSeq q) = exec i s := by
  cases i <;> rfl

theorem beginInstr_setSeq (i : Instr) (s : State) (q : Seq) :
    beginInstr i (s.setSeq q) = beginInstr i s := by
  cases i <;> rfl

/-- How an instruction begins: with its whole effect, with rounds `first .. first + more` that make up
its effect, or with a padded message to absorb (notes/assumptions/7.md). -/
theorem beginInstr_cases (i : Instr) (s : State) :
    beginInstr i s = exec i s ∨
    (∃ (first last : Fin 24) (more : Nat), first.val + more = last.val ∧
      beginInstr i s = .next (startRounds first last s) ∧
      exec i s = .next ((s.setS (runRounds s.S first more)).succeed [])) ∨
    ∃ n, cfgValid s.cfg = true ∧ beginInstr i s = .next (startSponge n s) ∧
      exec i s = .next (finishSponge n s) := by
  cases i with
  | init | rdsr | lds | sts | theta | rhopi | chi | iota => exact .inl rfl
  | round ir =>
    by_cases h : ir.toNat ≤ 23
    · exact .inr (.inl ⟨⟨ir.toNat, by omega⟩, ⟨ir.toNat, by omega⟩, 0, rfl,
        by simp only [beginInstr, roundIndex_of_le ir h], exec_round_legal s ir h⟩)
    · exact .inl (by simp only [beginInstr, exec, execRound, roundIndex_of_gt ir (by omega)])
  | perm => exact .inr (.inl ⟨0, 23, 23, rfl, rfl, by rw [runRounds_all]; rfl⟩)
  | sponge n =>
    cases h : cfgValid s.cfg with
    | false => exact .inl (by simp [beginInstr, exec, execSponge, h])
    | true => exact .inr (.inr ⟨n, rfl, by simp [beginInstr, h], by simp [exec, execSponge, h]⟩)
  | hash m =>
    cases h : cfgValid s.cfg with
    | false => exact .inl (by simp [beginInstr, exec, execHash, h])
    | true =>
      by_cases bytes : m.length % 8 = 0
      · exact .inr (.inr ⟨withSuffix m, rfl, by simp [beginInstr, h, bytes],
          by simp [exec, execHash, h, bytes]⟩)
      · exact .inl (by simp [beginInstr, exec, execHash, h, bytes])

theorem beginFrame_of_illegal {f : Frame} {why : DecodeError} (h : decode f = .illegal why)
    (s : State) : beginFrame f s = .next (s.raise .illegalCommand) := by rw [beginFrame, h]

theorem beginFrame_of_command {f : Frame} {i : Instr} (h : decode f = .command i) (s : State) :
    beginFrame f s = beginInstr i s := by rw [beginFrame, h]

theorem beginFrame_setSeq (f : Frame) (s : State) (q : Seq) :
    beginFrame f (s.setSeq q) = beginFrame f s := by
  cases h : decode f with
  | illegal why => rw [beginFrame_of_illegal h, beginFrame_of_illegal h, State.raise_setSeq]
  | command i => rw [beginFrame_of_command h, beginFrame_of_command h, beginInstr_setSeq]

/-! ### A finer step answers a next state and leaves the environment alone -/

theorem beginInstr_sameEnvironment (i : Instr) (s : State) :
    ∃ t, beginInstr i s = .next t ∧ SameEnvironment s t := by
  obtain h | ⟨first, last, -, -, h, -⟩ | ⟨n, -, h, -⟩ := beginInstr_cases i s
  · obtain ⟨t, answer, outside⟩ := exec_outside i s
    exact ⟨t, h.trans answer, outside.sameEnvironment⟩
  · exact ⟨_, h, rfl, rfl, rfl⟩
  · exact ⟨_, h, rfl, rfl, rfl⟩

theorem beginFrame_sameEnvironment (f : Frame) (s : State) :
    ∃ t, beginFrame f s = .next t ∧ SameEnvironment s t := by
  cases h : decode f with
  | illegal why => exact ⟨_, beginFrame_of_illegal h s, rfl, rfl, rfl⟩
  | command i =>
    rw [beginFrame_of_command h]
    exact beginInstr_sameEnvironment i s

theorem stageStep_sameEnvironment (last : Fin 24) (finished : State → State)
    (keeps : ∀ u, SameEnvironment u (finished u)) (s : State) :
    SameEnvironment s (stageStep last finished s) := by
  cases h : s.seq.stg with
  | theta => rw [stageStep_theta last finished s h]; exact ⟨rfl, rfl, rfl⟩
  | rhopi => rw [stageStep_rhopi last finished s h]; exact ⟨rfl, rfl, rfl⟩
  | chi => rw [stageStep_chi last finished s h]; exact ⟨rfl, rfl, rfl⟩
  | iota =>
    rw [stageStep_iota last finished s h]
    split
    · exact keeps _
    · exact ⟨rfl, rfl, rfl⟩

theorem absorbStep_sameEnvironment (s : State) : SameEnvironment s (absorbStep s) := by
  rw [absorbStep]
  split
  · exact ⟨rfl, rfl, rfl⟩
  · exact ⟨rfl, rfl, rfl⟩

theorem fineStep_sameEnvironment (a : Activity) (s : State) :
    ∃ t, fineStep a s = .next t ∧ SameEnvironment s t := by
  cases a with
  | accepted f => exact beginFrame_sameEnvironment f s
  | rounds last =>
    exact ⟨_, rfl, stageStep_sameEnvironment last toReply (fun _ => ⟨rfl, rfl, rfl⟩) s⟩
  | reply => exact ⟨_, rfl, rfl, rfl, rfl⟩
  | absorb => exact ⟨_, rfl, absorbStep_sameEnvironment s⟩
  | absorbRounds last =>
    exact ⟨_, rfl, stageStep_sameEnvironment last nextBlock (fun _ => ⟨rfl, rfl, rfl⟩) s⟩

theorem advance_of_ready (s : State) (ready : s.seq.activity = none) : advance s = .next s := by
  simp [advance, ready]

theorem advance_sameEnvironment (s : State) : ∃ t, advance s = .next t ∧ SameEnvironment s t := by
  cases h : s.seq.activity with
  | none => exact ⟨s, advance_of_ready s h, rfl, rfl, rfl⟩
  | some a =>
    rw [advance_of_activity s a h]
    exact fineStep_sameEnvironment a s

/-! ### What a step can do -/

theorem step_of_assertReset (s : State) (rest : List HostMove) (h : s.host = .assertReset :: rest) :
    step s = .next ((s.setHost rest).resetBlock) := by simp [step, hostStep, h]

theorem step_of_pause (s : State) (rest : List HostMove) (h : s.host = .pause :: rest) :
    step s = advance (s.setHost rest) := by simp [step, hostStep, h]

theorem step_of_receive (s : State) (r : Response) (rs : List Response) (rest : List HostMove)
    (h : s.host = .receive :: rest) (sent : s.responses = r :: rs) :
    step s = .next ((s.setHost rest).takeResponse r rs) := by simp [step, hostStep, h, sent]

theorem step_of_receive_empty (s : State) (rest : List HostMove) (h : s.host = .receive :: rest)
    (sent : s.responses = []) : step s = advance s := by simp [step, hostStep, h, sent]

theorem step_of_send_ready (s : State) (f : Frame) (rest : List HostMove)
    (ready : s.seq.activity = none) (h : s.host = .send f :: rest) :
    step s = runFrame f (s.setHost rest) := by simp [step, hostStep, h, ready]

theorem step_of_sendStepped_ready (s : State) (f : Frame) (rest : List HostMove)
    (ready : s.seq.activity = none) (h : s.host = .sendStepped f :: rest) :
    step s = .next (accept f (s.setHost rest)) := by simp [step, hostStep, h, ready]

/-- A busy block goes on by itself under a host that offers a frame or has no move (R216). -/
theorem step_of_busy (s : State) (a : Activity) (busy : s.seq.activity = some a)
    (offers : OffersFrame s.host) : step s = advance s := by
  rw [advance_of_activity s a busy]
  obtain h | ⟨f, rest, h | h⟩ := offers
  · simp [step, hostStep, h, advance, busy]
  · simp [step, hostStep, h, busy]
  · simp [step, hostStep, h, busy]

/-- Every answer of `step`: the host's oldest move is taken, or it is held and the block goes on. -/
theorem step_cases (s : State) :
    (∃ rest, s.host = .assertReset :: rest ∧ step s = .next ((s.setHost rest).resetBlock)) ∨
    (∃ r rs rest, s.host = .receive :: rest ∧ s.responses = r :: rs ∧
      step s = .next ((s.setHost rest).takeResponse r rs)) ∨
    (∃ f rest, s.seq.activity = none ∧ s.host = .send f :: rest ∧
      step s = runFrame f (s.setHost rest)) ∨
    (∃ f rest, s.seq.activity = none ∧ s.host = .sendStepped f :: rest ∧
      step s = .next (accept f (s.setHost rest))) ∨
    (∃ rest, s.host = .pause :: rest ∧ step s = advance (s.setHost rest)) ∨
    ((OffersFrame s.host ∨ ∃ rest, s.host = .receive :: rest ∧ s.responses = []) ∧
      step s = advance s) := by
  match h : s.host with
  | [] => exact .inr (.inr (.inr (.inr (.inr ⟨.inl (.inl rfl), by simp [step, hostStep, h]⟩))))
  | .assertReset :: rest => exact .inl ⟨rest, rfl, step_of_assertReset s rest h⟩
  | .pause :: rest => exact .inr (.inr (.inr (.inr (.inl ⟨rest, rfl, step_of_pause s rest h⟩))))
  | .receive :: rest =>
    cases sent : s.responses with
    | nil =>
      exact .inr (.inr (.inr (.inr (.inr
        ⟨.inr ⟨rest, rfl, rfl⟩, step_of_receive_empty s rest h sent⟩))))
    | cons r rs => exact .inr (.inl ⟨r, rs, rest, rfl, rfl, step_of_receive s r rs rest h sent⟩)
  | .send f :: rest =>
    cases activity : s.seq.activity with
    | none =>
      exact .inr (.inr (.inl ⟨f, rest, rfl, rfl, step_of_send_ready s f rest activity h⟩))
    | some a =>
      have offers : OffersFrame (.send f :: rest) := .inr ⟨f, rest, .inl rfl⟩
      exact .inr (.inr (.inr (.inr (.inr
        ⟨.inl offers, step_of_busy s a activity (h ▸ offers)⟩))))
  | .sendStepped f :: rest =>
    cases activity : s.seq.activity with
    | none =>
      exact .inr (.inr (.inr (.inl
        ⟨f, rest, rfl, rfl, step_of_sendStepped_ready s f rest activity h⟩)))
    | some a =>
      have offers : OffersFrame (.sendStepped f :: rest) := .inr ⟨f, rest, .inr rfl⟩
      exact .inr (.inr (.inr (.inr (.inr
        ⟨.inl offers, step_of_busy s a activity (h ▸ offers)⟩))))

/-- Every step answers a next state in the same configuration. -/
theorem step_keeps_cfg (s : State) : ∃ t, step s = .next t ∧ t.cfg = s.cfg := by
  obtain ⟨rest, -, h⟩ | ⟨r, rs, rest, -, -, h⟩ | ⟨f, rest, -, -, h⟩ | ⟨f, rest, -, -, h⟩ |
    ⟨rest, -, h⟩ | ⟨-, h⟩ := step_cases s
  · exact ⟨_, h, rfl⟩
  · exact ⟨_, h, rfl⟩
  · obtain ⟨t, answer, -, cfg, -⟩ := runFrame_outside f (s.setHost rest)
    exact ⟨t, h.trans answer, cfg⟩
  · exact ⟨_, h, rfl⟩
  · obtain ⟨t, answer, cfg, -⟩ := advance_sameEnvironment (s.setHost rest)
    exact ⟨t, h.trans answer, cfg⟩
  · obtain ⟨t, answer, cfg, -⟩ := advance_sameEnvironment s
    exact ⟨t, h.trans answer, cfg⟩

/-- Settles O10: every branch of the step calls an operation that answers a next state. -/
theorem stepNeverStops : Obligations.StepNeverStops := by
  intro s
  obtain ⟨t, h, -⟩ := step_keeps_cfg s
  exact ⟨t, h⟩

/-- Settles O11: no operation of the step writes the configuration. -/
theorem configNeverChanges : Obligations.ConfigNeverChanges := by
  intro s t h
  obtain ⟨u, answer, cfg⟩ := step_keeps_cfg s
  cases h.symm.trans answer
  exact cfg

/-- Settles O6: the step is `takeResponse`, whose frame is known field by field. -/
theorem receiveTakesOldestResponse : Obligations.ReceiveTakesOldestResponse := by
  intro s r rs rest h sent
  exact ⟨_, step_of_receive s r rs rest h sent, rfl, rfl, rfl, rfl, rfl, rfl, rfl⟩

/-- Settles O54: the step is `accept`, which writes the hidden state alone. -/
theorem stepAcceptsSteppedFrame : Obligations.StepAcceptsSteppedFrame := by
  intro s f rest ready h
  exact ⟨_, step_of_sendStepped_ready s f rest ready h, rfl, rfl, rfl, rfl, rfl, rfl, rfl, rfl⟩

/-! ### Rounds in finer steps (R124) -/

theorem advanceN_one (s : State) : advanceN 1 s = advance s := by
  obtain ⟨t, h, -⟩ := advance_sameEnvironment s
  rw [advanceN_succ_of_advance s t 0 h, h]; rfl

section RoundsOfActivity

variable {a : Activity} {last : Fin 24} {finished : State → State}
  (stages : ∀ u, fineStep a u = .next (stageStep last finished u))

include stages

/-- A finer step in the middle of a round is a stage step. -/
theorem advanceN_stage (n : Nat) (s : State) (busy : s.seq.activity = some a) :
    advanceN (n + 1) s = advanceN n (stageStep last finished s) :=
  advanceN_succ_of_advance _ _ n ((advance_of_activity s a busy).trans (stages s))

/-- Four finer steps from the THETA stage are the four stages of one round. -/
theorem advanceN_round (s : State) (busy : s.seq.activity = some a) (stg : s.seq.stg = .theta) :
    advanceN 4 s = .next (
      if s.seq.rnd = last then
        finished ((s.setS (rnd s.S s.seq.rnd)).setSeq { s.seq with stg := .theta, rnd := 0 })
      else
        (s.setS (rnd s.S s.seq.rnd)).setSeq
          { s.seq with stg := .theta, rnd := s.seq.rnd + 1 }) := by
  rw [advanceN_stage stages 3 s busy, stageStep_theta last finished s stg,
    advanceN_stage stages 2, stageStep_rhopi, advanceN_stage stages 1, stageStep_chi,
    advanceN_stage stages 0, stageStep_iota]
  exacts [rfl, rfl, busy, rfl, busy, rfl, busy]

/-- From the THETA stage, the rounds up to `last` are four finer steps each (R124, R126). -/
theorem advanceN_rounds (more : Nat) (s : State) (busy : s.seq.activity = some a)
    (stg : s.seq.stg = .theta) (toLast : s.seq.rnd.val + more = last.val) :
    advanceN ((more + 1) * 4) s = .next (finished
      ((s.setS (runRounds s.S s.seq.rnd more)).setSeq { s.seq with stg := .theta, rnd := 0 })) := by
  induction more generalizing s with
  | zero =>
    rw [Nat.zero_add, Nat.one_mul, advanceN_round stages s busy stg, if_pos (Fin.ext toLast)]
    rfl
  | succ more ih =>
    have notLast : s.seq.rnd ≠ last := fun h => by rw [h] at toLast; omega
    have next : (s.seq.rnd + 1).val = s.seq.rnd.val + 1 :=
      Fin.val_add_one_of_lt' (by omega)
    have round := advanceN_round stages s busy stg
    rw [if_neg notLast] at round
    rw [show (more + 1 + 1) * 4 = 4 + (more + 1) * 4 by omega, advanceN_add _ _ _ _ round]
    exact ih (State.setSeq _ _) busy rfl (by simp only [State.setSeq_seq]; omega)

end RoundsOfActivity

/-- ROUND and PERM in finer steps, after their beginning: the rounds, then the response (R125). -/
theorem advanceN_startRounds (first last : Fin 24) (more : Nat)
    (toLast : first.val + more = last.val) (s : State) :
    advanceN ((more + 1) * 4 + 1) (startRounds first last s) =
      .next ((s.setS (runRounds s.S first more)).succeed []) := by
  have rounds := advanceN_rounds (a := .rounds last) (fun _ => rfl) more (startRounds first last s)
    rfl rfl toLast
  rw [advanceN_add _ _ _ _ rounds, advanceN_one]
  rfl

/-! ### The padded message and its blocks (R141, R143) -/

theorem length_padded (r : Nat) (n : Bits) :
    (padded r n).length = n.length + padZeros r n.length + 2 := by
  simp [padded, pad]; omega

/-- The padded message is a whole number of blocks (R142). -/
theorem length_padded_mod (r : Nat) (n : Bits) (ratePos : 0 < r) : (padded r n).length % r = 0 := by
  have zeros : (padZeros r n.length : Int) = (-(n.length : Int) - 2) % r :=
    Int.toNat_of_nonneg (Int.emod_nonneg _ (by omega))
  have whole : (((padded r n).length : Nat) : Int) = r * -((-(n.length : Int) - 2) / r) := by
    have := Int.emod_add_mul_ediv (-(n.length : Int) - 2) r
    rw [length_padded, Int.mul_neg]; push_cast; omega
  exact Nat.mod_eq_zero_of_dvd (Int.natCast_dvd_natCast.mp ⟨_, whole⟩)

theorem blocks_nil (r : Nat) : blocks r [] = [] := by simp [blocks]

/-- A sequence with a whole block at its front has that block first. -/
theorem blocks_cons (r : Nat) (p : Bits) (ratePos : 0 < r) (h : r ≤ p.length) :
    blocks r p = p.take r :: blocks r (p.drop r) := by
  have count : p.length / r = (p.drop r).length / r + 1 := by
    rw [List.length_drop, Nat.div_eq_sub_div ratePos h]
  rw [blocks, count, List.range_succ_eq_map, List.map_cons, List.map_map, blocks, Nat.zero_mul,
    List.drop_zero]
  congr 1
  refine List.map_congr_left fun i _ => ?_
  rw [Function.comp, List.drop_drop, Nat.succ_mul, Nat.add_comm]

/-! ### The sponge in finer steps (R155) -/

/-- Absorbing a block: XOR it into `S`, then permute (R144). -/
def absorbBlock (cfg : Config) (T : StateReg) (block : Bits) : StateReg :=
  keccakP (xorBlock cfg T block)

theorem spongeState_eq (cfg : Config) (n : Bits) : spongeState cfg n =
    (blocks (rate cfg) (padded (rate cfg) n)).foldl (absorbBlock cfg) 0 := rfl

/-- One pending block takes its XOR and 96 stages; the next one is then due. -/
theorem advanceN_absorb_block (s : State) (busy : s.seq.activity = some .absorb)
    (due : s.seq.pending ≠ []) :
    advanceN (1 + 24 * 4) s = .next
      ((s.setS (absorbBlock s.cfg s.S (s.seq.pending.take (rate s.cfg)))).setSeq
        { stg := .theta, rnd := 0, blk := s.seq.blk + 1,
          pending := s.seq.pending.drop (rate s.cfg), activity := some .absorb }) := by
  have xor := (advanceN_one s).trans (advance_of_activity s .absorb busy)
  rw [fineStep, absorbStep, if_neg due] at xor
  rw [advanceN_add _ _ _ _ xor,
    advanceN_rounds (a := .absorbRounds 23) (fun _ => rfl) 23 _ rfl rfl rfl]
  simp only [State.setSeq_S, State.setSeq_seq, State.setS_S, runRounds_all]
  rfl

/-- The whole pending message is absorbed, and then the digest is the response. -/
theorem advanceN_absorb (count : Nat) (s : State) (T : StateReg)
    (busy : s.seq.activity = some .absorb) (ratePos : 0 < rate s.cfg)
    (whole : s.seq.pending.length = count * rate s.cfg)
    (final : (blocks (rate s.cfg) s.seq.pending).foldl (absorbBlock s.cfg) s.S = T) :
    advanceN (count * (1 + 24 * 4) + 1) s = .next ((s.setS T).succeed (squeeze s.cfg T)) := by
  induction count generalizing s with
  | zero =>
    have done : s.seq.pending = [] := List.eq_nil_of_length_eq_zero (by omega)
    rw [done, blocks_nil, List.foldl_nil] at final
    rw [← final, Nat.zero_mul, Nat.zero_add, advanceN_one, advance_of_activity s .absorb busy,
      fineStep, absorbStep, if_pos done]
    rfl
  | succ count ih =>
    have long : rate s.cfg ≤ s.seq.pending.length := by
      rw [whole]; exact Nat.le_mul_of_pos_left _ count.succ_pos
    have due : s.seq.pending ≠ [] := List.ne_nil_of_length_pos (by omega)
    have block := advanceN_absorb_block s busy due
    rw [blocks_cons _ _ ratePos long, List.foldl_cons] at final
    rw [show (count + 1) * (1 + 24 * 4) + 1 = (1 + 24 * 4) + (count * (1 + 24 * 4) + 1) by omega,
      advanceN_add _ _ _ _ block]
    exact ih (State.setSeq _ _) rfl ratePos (by simp [whole, Nat.succ_mul]) final

theorem rate_pos_of_valid (cfg : Config) (h : cfgValid cfg = true) : 0 < rate cfg := by
  rw [cfgValid_iff] at h
  unfold rate
  omega

/-- SPONGE and HASH in finer steps, after their beginning (R155). -/
theorem advanceN_startSponge (n : Bits) (s : State) (valid : cfgValid s.cfg = true) :
    advanceN ((padded (rate s.cfg) n).length / rate s.cfg * (1 + 24 * 4) + 1) (startSponge n s) =
      .next (finishSponge n s) := by
  have ratePos := rate_pos_of_valid s.cfg valid
  have whole := Nat.div_mul_cancel
    (Nat.dvd_of_mod_eq_zero (length_padded_mod (rate s.cfg) n ratePos))
  exact advanceN_absorb _ (startSponge n s) _ rfl ratePos whole.symm (spongeState_eq s.cfg n).symm

/-! ### Finer steps and one step -/

theorem advance_accept (f : Frame) (s : State) : advance (accept f s) = beginFrame f s :=
  (advance_of_activity _ (.accepted f) rfl).trans (beginFrame_setSeq f s _)

/-- The rest of a command, from its beginning on, ends in the state of its one-step effect. -/
theorem advanceN_after_beginInstr (i : Instr) (s : State) :
    ∃ n t, beginInstr i s = .next t ∧ advanceN n t = exec i s := by
  obtain h | ⟨first, last, more, toLast, h, effect⟩ | ⟨n, valid, h, effect⟩ := beginInstr_cases i s
  · obtain ⟨t, answer, -⟩ := exec_outside i s
    exact ⟨0, t, h.trans answer, answer.symm⟩
  · exact ⟨_, _, h, (advanceN_startRounds first last more toLast s).trans effect.symm⟩
  · exact ⟨_, _, h, (advanceN_startSponge n s valid).trans effect.symm⟩

/-- Every frame, seen in finer steps, ends in the state of its one-step effect (R125, R14). -/
theorem advanceN_accept (f : Frame) (s : State) : ∃ n, advanceN n (accept f s) = runFrame f s := by
  cases h : decode f with
  | illegal why =>
    exact ⟨1, by rw [advanceN_one, advance_accept, beginFrame_of_illegal h, runFrame_of_illegal h]⟩
  | command i =>
    obtain ⟨n, t, start, rest⟩ := advanceN_after_beginInstr i s
    have first : advance (accept f s) = .next t := by
      rw [advance_accept, beginFrame_of_command h, start]
    exact ⟨n + 1, by rw [advanceN_succ_of_advance _ _ n first, rest, runFrame_of_command h]⟩

theorem advanceN_of_ready (n : Nat) (s : State) (ready : s.seq.activity = none) :
    advanceN n s = .next s := by
  induction n with
  | zero => rfl
  | succ n ih => rw [advanceN_succ_of_advance s s n (advance_of_ready s ready), ih]

/-- Under a host that offers a frame or has no move, steps of the machine lead wherever finer steps
lead: while the block is busy each step is a finer one, and once it is ready finer steps change
nothing. -/
theorem core_run_of_advanceN (n : Nat) (s t : State) (offers : OffersFrame s.host)
    (h : advanceN n s = .next t) : ∃ k, Host.Core.run core k s = .next t := by
  induction n generalizing s with
  | zero => exact ⟨0, h⟩
  | succ n ih =>
    cases activity : s.seq.activity with
    | none => exact ⟨0, (advanceN_of_ready (n + 1) s activity).symm.trans h⟩
    | some a =>
      obtain ⟨u, finer, -, host, -⟩ := advance_sameEnvironment s
      rw [advanceN_succ_of_advance s u n finer] at h
      obtain ⟨k, run⟩ := ih u (host ▸ offers) h
      exact ⟨k + 1, (core_run_succ k s u ((step_of_busy s a activity offers).trans finer)).trans run⟩

/-- Settles O56: the first step accepts the frame, and the steps after it are its finer steps. -/
theorem stepsOfSteppedFrameAgree : Obligations.StepsOfSteppedFrameAgree := by
  intro s f rest ready h offers
  obtain ⟨t, answer, -⟩ := runFrame_outside f (s.setHost rest)
  obtain ⟨n, finer⟩ := advanceN_accept f (s.setHost rest)
  obtain ⟨k, run⟩ := core_run_of_advanceN n _ t offers (finer.trans answer)
  have accepts := step_of_sendStepped_ready s f rest ready h
  exact ⟨k + 1, t, answer, (core_run_succ k s _ accepts).trans run⟩

end Sys2Proof.Machine

/-! # State (spec/10_state.md): STATUS and the invariant of the machine

How STATUS changes in a command and in a step, said once; then the invariant `StateInv`, which holds at
reset and which every step keeps. -/

namespace Sys2Proof.Machine

/-! ### What a frame does, sent to a ready block or begun in finer steps -/

/-- Every answer of `runFrame`: `exec_cases` with the illegal frames among the errors. -/
theorem runFrame_cases (f : Frame) (s : State) :
    (decode f = .command .init ∧
      runFrame f s = .next (((s.setS 0).setStatus 0).respond 0 [])) ∨
    (decode f = .command (.rdsr 0) ∧ runFrame f s = .next (s.respond 0 (toBits s.status))) ∨
    (decode f ≠ .command .init ∧ (∀ n, decode f ≠ .command (.rdsr n)) ∧
      ∃ v payload, runFrame f s = .next ((s.setS v).succeed payload)) ∨
    ∃ e, runFrame f s = .next (s.raise e) := by
  cases h : decode f with
  | illegal why => exact .inr (.inr (.inr ⟨_, runFrame_of_illegal h s⟩))
  | command i =>
    rw [runFrame_of_command h]
    obtain ⟨rfl, answer⟩ | ⟨rfl, answer⟩ | ⟨notInit, notRdsr, answer⟩ | ⟨-, answer⟩ :=
      exec_cases i s
    · exact .inl ⟨rfl, answer⟩
    · exact .inr (.inl ⟨rfl, answer⟩)
    · exact .inr (.inr (.inl ⟨by simpa using notInit, by simpa using notRdsr, answer⟩))
    · exact .inr (.inr (.inr answer))

/-- Every answer of `beginFrame`: the whole effect of the frame, or the start of rounds or of a
sponge (notes/assumptions/7.md). -/
theorem beginFrame_cases (f : Frame) (s : State) :
    beginFrame f s = runFrame f s ∨
    (∃ first last, first ≤ last ∧ beginFrame f s = .next (startRounds first last s)) ∨
    ∃ n, cfgValid s.cfg = true ∧ beginFrame f s = .next (startSponge n s) := by
  cases h : decode f with
  | illegal why => exact .inl ((beginFrame_of_illegal h s).trans (runFrame_of_illegal h s).symm)
  | command i =>
    rw [beginFrame_of_command h, runFrame_of_command h]
    obtain whole | ⟨first, last, more, toLast, start, -⟩ | ⟨n, valid, start, -⟩ :=
      beginInstr_cases i s
    · exact .inl whole
    · exact .inr (.inl ⟨first, last, Fin.le_def.mpr (by omega), start⟩)
    · exact .inr (.inr ⟨n, valid, start⟩)

/-! ### What a finer step does -/

/-- The command goes on: STATUS, the response channel and the environment are the same. -/
def GoesOn (s t : State) : Prop :=
  t.status = s.status ∧ t.responses = s.responses ∧ SameEnvironment s t

/-- Every answer of `stageStep`: a stage in the middle of a round, or the IOTA stage of the last round
or of an earlier one (R124). -/
theorem stageStep_cases (last : Fin 24) (finished : State → State) (s : State) :
    (∃ A g, stageStep last finished s = (s.setS A).setSeq { s.seq with stg := g }) ∨
    (s.seq.rnd = last ∧ ∃ A, stageStep last finished s =
      finished ((s.setS A).setSeq { s.seq with stg := .theta, rnd := 0 })) ∨
    (s.seq.rnd ≠ last ∧ ∃ A, stageStep last finished s =
      (s.setS A).setSeq { s.seq with stg := .theta, rnd := s.seq.rnd + 1 }) := by
  cases h : s.seq.stg with
  | theta => exact .inl ⟨_, _, stageStep_theta last finished s h⟩
  | rhopi => exact .inl ⟨_, _, stageStep_rhopi last finished s h⟩
  | chi => exact .inl ⟨_, _, stageStep_chi last finished s h⟩
  | iota =>
    by_cases done : s.seq.rnd = last
    · exact .inr (.inl ⟨done, _, by rw [stageStep_iota last finished s h, if_pos done]⟩)
    · exact .inr (.inr ⟨done, _, by rw [stageStep_iota last finished s h, if_neg done]⟩)

theorem stageStep_goesOn (last : Fin 24) (finished : State → State)
    (keeps : ∀ u, GoesOn u (finished u)) (s : State) : GoesOn s (stageStep last finished s) := by
  obtain ⟨A, g, h⟩ | ⟨-, A, h⟩ | ⟨-, A, h⟩ := stageStep_cases last finished s
  · rw [h]; exact ⟨rfl, rfl, rfl, rfl, rfl⟩
  · rw [h]; exact keeps _
  · rw [h]; exact ⟨rfl, rfl, rfl, rfl, rfl⟩

/-- Every answer of `fineStep`: the whole effect of an accepted frame, the command going on, or its
successful end with no payload or with the digest. -/
theorem fineStep_cases (a : Activity) (s : State) :
    (∃ f, a = .accepted f ∧ fineStep a s = runFrame f s) ∨
    (∃ t, fineStep a s = .next t ∧ GoesOn s t) ∨
    (a = .reply ∧ fineStep a s = .next (s.succeed [])) ∨
    (a = .absorb ∧ fineStep a s = .next (s.succeed (squeeze s.cfg s.S))) := by
  cases a with
  | accepted f =>
    obtain h | ⟨first, last, -, h⟩ | ⟨n, -, h⟩ := beginFrame_cases f s
    · exact .inl ⟨f, rfl, h⟩
    · exact .inr (.inl ⟨_, h, rfl, rfl, rfl, rfl, rfl⟩)
    · exact .inr (.inl ⟨_, h, rfl, rfl, rfl, rfl, rfl⟩)
  | rounds last =>
    have keeps : ∀ u, GoesOn u (toReply u) := fun _ => ⟨rfl, rfl, rfl, rfl, rfl⟩
    exact .inr (.inl ⟨_, rfl, stageStep_goesOn last toReply keeps s⟩)
  | reply => exact .inr (.inr (.inl ⟨rfl, rfl⟩))
  | absorb =>
    by_cases done : s.seq.pending = []
    · exact .inr (.inr (.inr ⟨rfl, by rw [fineStep, absorbStep, if_pos done]⟩))
    · refine .inr (.inl ⟨absorbStep s, rfl, ?_⟩)
      rw [absorbStep, if_neg done]
      exact ⟨rfl, rfl, rfl, rfl, rfl⟩
  | absorbRounds last =>
    have keeps : ∀ u, GoesOn u (nextBlock u) := fun _ => ⟨rfl, rfl, rfl, rfl, rfl⟩
    exact .inr (.inl ⟨_, rfl, stageStep_goesOn last nextBlock keeps s⟩)

/-! ### How STATUS changes (R27) -/

/-- STATUS is kept, or written as at a successful end, or as at an error: R27 but for INIT and reset. -/
def StatusUpdate (old new : StatusReg) : Prop :=
  new = old ∨ new = statusOk old ∨ ∃ e, new = statusError old e

/-- No update but INIT and reset clears a sticky bit. -/
theorem StatusUpdate.keeps_sticky {old new : StatusReg} (h : StatusUpdate old new) {p : Nat}
    (low : 4 ≤ p) (high : p < 8) (set : old.getLsbD p = true) : new.getLsbD p = true := by
  obtain rfl | rfl | ⟨e, rfl⟩ := h
  · exact set
  · rw [getLsbD_statusOk old p (by omega), decide_eq_true low, set, Bool.and_self]
  · rw [getLsbD_statusError old e p (by omega), if_neg (by omega), set, Bool.or_true]

theorem runFrame_status (f : Frame) (s : State) : ∃ t, runFrame f s = .next t ∧
    (StatusUpdate s.status t.status ∨ (decode f = .command .init ∧ t.status = 0)) := by
  obtain ⟨init, h⟩ | ⟨-, h⟩ | ⟨-, -, v, payload, h⟩ | ⟨e, h⟩ := runFrame_cases f s
  · exact ⟨_, h, .inr ⟨init, rfl⟩⟩
  · exact ⟨_, h, .inl (.inl rfl)⟩
  · exact ⟨_, h, .inl (.inr (.inl rfl))⟩
  · exact ⟨_, h, .inl (.inr (.inr ⟨e, rfl⟩))⟩

theorem fineStep_status (a : Activity) (s : State) : ∃ t, fineStep a s = .next t ∧
    (StatusUpdate s.status t.status ∨ ∃ f, a = .accepted f ∧ decode f = .command .init) := by
  obtain ⟨f, accepted, h⟩ | ⟨t, h, status, -⟩ | ⟨-, h⟩ | ⟨-, h⟩ := fineStep_cases a s
  · obtain ⟨t, answer, update | ⟨init, -⟩⟩ := runFrame_status f s
    · exact ⟨t, h.trans answer, .inl update⟩
    · exact ⟨t, h.trans answer, .inr ⟨f, accepted, init⟩⟩
  · exact ⟨t, h, .inl (.inl status)⟩
  · exact ⟨_, h, .inl (.inr (.inl rfl))⟩
  · exact ⟨_, h, .inl (.inr (.inl rfl))⟩

theorem advance_status (s : State) : ∃ t, advance s = .next t ∧
    (StatusUpdate s.status t.status ∨
      ∃ f, s.seq.activity = some (.accepted f) ∧ decode f = .command .init) := by
  cases activity : s.seq.activity with
  | none => exact ⟨s, advance_of_ready s activity, .inl (.inl rfl)⟩
  | some a =>
    rw [advance_of_activity s a activity]
    obtain ⟨t, answer, update | ⟨f, rfl, init⟩⟩ := fineStep_status a s
    · exact ⟨t, answer, .inl update⟩
    · exact ⟨t, answer, .inr ⟨f, rfl, init⟩⟩

/-- The step to come is a reset, or begins a well-formed INIT. -/
def ResetOrInitNext (s : State) : Prop :=
  (∃ rest, s.host = .assertReset :: rest) ∨
  ∃ f, decode f = .command .init ∧
    (s.seq.activity = some (.accepted f) ∨
      (s.seq.activity = none ∧ ∃ rest, s.host = .send f :: rest))

theorem step_status (s : State) : ∃ t, step s = .next t ∧
    (StatusUpdate s.status t.status ∨ ResetOrInitNext s) := by
  obtain ⟨rest, reset, h⟩ | ⟨r, rs, rest, -, -, h⟩ | ⟨f, rest, ready, sent, h⟩ |
    ⟨f, rest, -, -, h⟩ | ⟨rest, -, h⟩ | ⟨-, h⟩ := step_cases s
  · exact ⟨_, h, .inr (.inl ⟨rest, reset⟩)⟩
  · exact ⟨_, h, .inl (.inl rfl)⟩
  · obtain ⟨t, answer, update | ⟨init, -⟩⟩ := runFrame_status f (s.setHost rest)
    · exact ⟨t, h.trans answer, .inl update⟩
    · exact ⟨t, h.trans answer, .inr (.inr ⟨f, init, .inr ⟨ready, rest, sent⟩⟩)⟩
  · exact ⟨_, h, .inl (.inl rfl)⟩
  · obtain ⟨t, answer, update | ⟨f, busy, init⟩⟩ := advance_status (s.setHost rest)
    · exact ⟨t, h.trans answer, .inl update⟩
    · exact ⟨t, h.trans answer, .inr (.inr ⟨f, init, .inl busy⟩)⟩
  · obtain ⟨t, answer, update | ⟨f, busy, init⟩⟩ := advance_status s
    · exact ⟨t, h.trans answer, .inl update⟩
    · exact ⟨t, h.trans answer, .inr (.inr ⟨f, init, .inl busy⟩)⟩

/-- Settles O13: every other step updates STATUS in a way that keeps the sticky bits. -/
theorem stickyBitsClearedOnlyByInitOrReset : Obligations.StickyBitsClearedOnlyByInitOrReset := by
  intro s t p h low high set cleared
  obtain ⟨u, answer, update | next⟩ := step_status s
  · cases h.symm.trans answer
    exact absurd (update.keeps_sticky low high set) (by simp [cleared])
  · exact next

theorem Error.code_ne_zero (e : Error) : e.code ≠ 0 := by cases e <;> decide

theorem Error.code_le (e : Error) : e.code.toNat ≤ 4 := by cases e <;> decide

/-- Settles O44: each answer of `runFrame` falls under one of the cases of R27. -/
theorem statusFollowsOutcome : Obligations.StatusFollowsOutcome := by
  refine ⟨fun f s t r h sent => ?_, fun s t rest reset h => ?_⟩
  · obtain ⟨init, answer⟩ | ⟨rdsr, answer⟩ | ⟨notInit, notRdsr, v, payload, answer⟩ | ⟨e, answer⟩ :=
      runFrame_cases f s
    all_goals
      cases h.symm.trans answer
      cases List.append_cancel_left sent
    · exact ⟨fun _ notInit => absurd init notInit, fun nonzero => absurd rfl nonzero,
        fun _ ⟨n, rdsr⟩ => by simp [init] at rdsr, fun _ _ => rfl⟩
    · exact ⟨fun _ _ notRdsr => absurd rdsr (notRdsr 0), fun nonzero => absurd rfl nonzero,
        fun _ _ => rfl, fun _ init => by simp [rdsr] at init⟩
    · exact ⟨fun _ _ _ p hp => getLsbD_statusOk s.status p hp, fun nonzero => absurd rfl nonzero,
        fun _ ⟨n, rdsr⟩ => absurd rdsr (notRdsr n), fun _ init => absurd init notInit⟩
    · exact ⟨fun zero => absurd zero e.code_ne_zero,
        fun _ p hp => getLsbD_statusError s.status e p hp,
        fun zero => absurd zero e.code_ne_zero, fun zero => absurd zero e.code_ne_zero⟩
  · cases h.symm.trans (step_of_assertReset s rest reset)
    rfl

/-! ### The invariant's part on STATUS -/

theorem lastCode_eq {st : StatusReg} {code : BitVec 4}
    (h : ∀ p < 4, st.getLsbD p = code.getLsbD p) : lastCode st = code := by
  apply BitVec.eq_of_getLsbD_eq
  intro p hp
  simp [lastCode, hp, h p hp]

theorem lastCode_statusOk (st : StatusReg) : lastCode (statusOk st) = 0 :=
  lastCode_eq fun p hp => by
    rw [getLsbD_statusOk st p (by omega), decide_eq_false (by omega), Bool.false_and,
      BitVec.ofNat_eq_ofNat, BitVec.getLsbD_zero]

theorem lastCode_statusError (st : StatusReg) (e : Error) : lastCode (statusError st e) = e.code :=
  lastCode_eq fun p hp => by
    rw [getLsbD_statusError st e p (by omega), if_pos hp, BitVec.testBit_toNat]

theorem statusOk_zero : StatusOk 0 := by
  simp [StatusOk, lastCode]

theorem StatusUpdate.keeps_statusOk {old new : StatusReg} (h : StatusUpdate old new)
    (ok : StatusOk old) : StatusOk new := by
  have ⟨reserved, _, _⟩ := ok
  obtain rfl | rfl | ⟨e, rfl⟩ := h
  · exact ok
  · refine ⟨fun p hp high => ?_, ?_, ?_⟩
    · rw [getLsbD_statusOk old p hp, reserved p hp high, Bool.and_false]
    · simp [lastCode_statusOk]
    · simp [lastCode_statusOk]
  · have code := e.code_le
    have pos : 0 < e.code.toNat := by cases e <;> decide
    refine ⟨fun p hp high => ?_, ?_, fun _ => ?_⟩
    · rw [getLsbD_statusError old e p hp, if_neg (by omega), decide_eq_false (by omega),
        reserved p hp high, Bool.or_self]
    · rwa [lastCode_statusError]
    · rw [lastCode_statusError, getLsbD_statusError old e _ (by omega), if_neg (by omega),
        decide_eq_true rfl, Bool.true_or]

/-! ### The invariant's part on responses (R66, R192) -/

theorem responseOk_of_error (cfg : Config) (e : Error) : ResponseOk cfg ⟨e.code, []⟩ :=
  ⟨e.code_le, fun _ => rfl, fun zero => absurd zero e.code_ne_zero⟩

theorem responseOk_of_success {cfg : Config} {payload : Bits}
    (h : payload.length ∈ [0, 32, cfg.d, 1600]) : ResponseOk cfg ⟨0, payload⟩ :=
  ⟨Nat.zero_le 4, fun nonzero => absurd rfl nonzero, fun _ => h⟩

/-- In a valid configuration the digest has `d` bits (R145). -/
theorem length_squeeze {cfg : Config} (valid : cfgValid cfg = true) (T : StateReg) :
    (squeeze cfg T).length = cfg.d := by
  obtain ⟨-, fits⟩ := (cfgValid_iff cfg).mp valid
  simp only [squeeze, List.length_take, length_toBits, rate]
  omega

/-- The payload length of a successful command (R192). -/
def successLength (cfg : Config) : Instr → Nat
  | .rdsr _ => 32
  | .sts => 1600
  | .sponge _ | .hash _ => cfg.d
  | .init | .lds _ | .theta | .rhopi | .chi | .iota _ | .round _ | .perm => 0

/-- The response `r` is one that the instruction can send (R66, R192). -/
def ResponseTo (cfg : Config) (i : Instr) (r : Response) : Prop :=
  (r.code = 0 ∧ r.payload.length = successLength cfg i) ∨ ∃ e : Error, r = ⟨e.code, []⟩

theorem ResponseTo.responseOk {cfg : Config} {i : Instr} {r : Response}
    (h : ResponseTo cfg i r) : ResponseOk cfg r := by
  obtain ⟨code, payload⟩ := r
  obtain ⟨rfl, length⟩ | ⟨e, h⟩ := h
  · refine responseOk_of_success ?_
    rw [length]
    cases i <;> simp [successLength]
  · exact h ▸ responseOk_of_error cfg e

theorem exec_response (i : Instr) (s : State) : ∃ t r, exec i s = .next t ∧
    t.responses = s.responses ++ [r] ∧ ResponseTo s.cfg i r := by
  cases i with
  | init | theta | rhopi | chi | perm => exact ⟨_, _, rfl, rfl, .inl ⟨rfl, rfl⟩⟩
  | sts => exact ⟨_, _, rfl, rfl, .inl ⟨rfl, by simp [successLength]⟩⟩
  | rdsr n =>
    by_cases zero : n = 0
    · exact ⟨_, _, by rw [exec, execRdsr, if_pos zero], rfl,
        .inl ⟨rfl, by simp [successLength]⟩⟩
    · exact ⟨_, _, by rw [exec, execRdsr, if_neg zero], rfl, .inr ⟨_, rfl⟩⟩
  | lds bs =>
    by_cases whole : bs.length = 1600
    · exact ⟨_, _, by rw [exec, execLds, if_pos whole], rfl, .inl ⟨rfl, rfl⟩⟩
    · exact ⟨_, _, by rw [exec, execLds, if_neg whole], rfl, .inr ⟨_, rfl⟩⟩
  | iota ir =>
    by_cases legal : ir.toNat ≤ 23
    · exact ⟨_, _, exec_iota_legal s ir legal, rfl, .inl ⟨rfl, rfl⟩⟩
    · exact ⟨_, _, by simp only [exec, execIota, roundIndex_of_gt ir (by omega)]; rfl, rfl,
        .inr ⟨_, rfl⟩⟩
  | round ir =>
    by_cases legal : ir.toNat ≤ 23
    · exact ⟨_, _, exec_round_legal s ir legal, rfl, .inl ⟨rfl, rfl⟩⟩
    · exact ⟨_, _, by simp only [exec, execRound, roundIndex_of_gt ir (by omega)]; rfl, rfl,
        .inr ⟨_, rfl⟩⟩
  | sponge n =>
    cases valid : cfgValid s.cfg with
    | false => exact ⟨_, _, by rw [exec, execSponge, if_pos valid], rfl, .inr ⟨_, rfl⟩⟩
    | true =>
      exact ⟨_, _, by rw [exec, execSponge, if_neg (by simp [valid])], rfl,
        .inl ⟨rfl, length_squeeze valid _⟩⟩
  | hash m =>
    cases valid : cfgValid s.cfg with
    | false => exact ⟨_, _, by rw [exec, execHash, if_pos valid], rfl, .inr ⟨_, rfl⟩⟩
    | true =>
      by_cases ragged : m.length % 8 ≠ 0
      · exact ⟨_, _, by rw [exec, execHash, if_neg (by simp [valid]), if_pos ragged], rfl,
          .inr ⟨_, rfl⟩⟩
      · exact ⟨_, _, by rw [exec, execHash, if_neg (by simp [valid]), if_neg ragged], rfl,
          .inl ⟨rfl, length_squeeze valid _⟩⟩

theorem runFrame_response (f : Frame) (s : State) : ∃ t r, runFrame f s = .next t ∧
    t.responses = s.responses ++ [r] ∧ ResponseOk s.cfg r := by
  cases h : decode f with
  | illegal why => exact ⟨_, _, runFrame_of_illegal h s, rfl, responseOk_of_error _ _⟩
  | command i =>
    rw [runFrame_of_command h]
    obtain ⟨t, r, answer, sent, response⟩ := exec_response i s
    exact ⟨t, r, answer, sent, response.responseOk⟩

/-! ### The invariant's part on the hidden state (R30, R124, R155) -/

theorem seqOk_idle (cfg : Config) : SeqOk cfg Seq.idle := rfl

theorem seqOk_rounds_iff {cfg : Config} {q : Seq} {last : Fin 24}
    (h : q.activity = some (.rounds last)) :
    SeqOk cfg q ↔ q.rnd ≤ last ∧ q.blk = 0 ∧ q.pending = [] := by rw [SeqOk, h]

theorem seqOk_absorb_iff {cfg : Config} {q : Seq} (h : q.activity = some .absorb) :
    SeqOk cfg q ↔ cfgValid cfg = true ∧ q.stg = .theta ∧ q.rnd = 0 ∧
      q.pending.length % rate cfg = 0 := by rw [SeqOk, h]

theorem seqOk_absorbRounds_iff {cfg : Config} {q : Seq} {last : Fin 24}
    (h : q.activity = some (.absorbRounds last)) :
    SeqOk cfg q ↔ cfgValid cfg = true ∧ last = 23 ∧ q.pending.length % rate cfg = 0 := by
  rw [SeqOk, h]

theorem startRounds_seqOk (first last : Fin 24) (s : State) (h : first ≤ last) :
    SeqOk s.cfg (startRounds first last s).seq := ⟨h, rfl, rfl⟩

theorem startSponge_seqOk (n : Bits) (s : State) (valid : cfgValid s.cfg = true) :
    SeqOk s.cfg (startSponge n s).seq :=
  ⟨valid, rfl, rfl, length_padded_mod _ n (rate_pos_of_valid _ valid)⟩

theorem beginFrame_seqOk (f : Frame) (s : State) :
    ∃ t, beginFrame f s = .next t ∧ SeqOk s.cfg t.seq := by
  obtain h | ⟨first, last, le, h⟩ | ⟨n, valid, h⟩ := beginFrame_cases f s
  · obtain ⟨t, answer, idle, -⟩ := runFrame_outside f s
    exact ⟨t, h.trans answer, idle ▸ seqOk_idle _⟩
  · exact ⟨_, h, startRounds_seqOk first last s le⟩
  · exact ⟨_, h, startSponge_seqOk n s valid⟩

/-- ROUND and PERM: the round index stays below `last` until the response is due. -/
theorem stageStep_rounds_seqOk {s : State} {last : Fin 24}
    (busy : s.seq.activity = some (.rounds last)) (ok : SeqOk s.cfg s.seq) :
    SeqOk s.cfg (stageStep last toReply s).seq := by
  obtain ⟨le, blk, pending⟩ := (seqOk_rounds_iff busy).mp ok
  obtain ⟨A, g, h⟩ | ⟨-, A, h⟩ | ⟨notLast, A, h⟩ := stageStep_cases last toReply s
  · rw [h]; exact (seqOk_rounds_iff (by exact busy)).mpr ⟨le, blk, pending⟩
  · rw [h]; simp [toReply, SeqOk, Seq.idle, blk, pending]
  · have lt : s.seq.rnd < last := lt_of_le_of_ne le notLast
    rw [h]; exact (seqOk_rounds_iff (by exact busy)).mpr ⟨Fin.add_one_le_of_lt lt, blk, pending⟩

/-- SPONGE and HASH: the pending message is untouched inside a permutation. -/
theorem stageStep_absorbRounds_seqOk {s : State} {last : Fin 24}
    (busy : s.seq.activity = some (.absorbRounds last)) (ok : SeqOk s.cfg s.seq) :
    SeqOk s.cfg (stageStep last nextBlock s).seq := by
  obtain ⟨valid, isLast, whole⟩ := (seqOk_absorbRounds_iff busy).mp ok
  obtain ⟨A, g, h⟩ | ⟨-, A, h⟩ | ⟨-, A, h⟩ := stageStep_cases last nextBlock s
  · rw [h]; exact (seqOk_absorbRounds_iff (by exact busy)).mpr ⟨valid, isLast, whole⟩
  · rw [h]; exact (seqOk_absorb_iff rfl).mpr ⟨valid, rfl, rfl, whole⟩
  · rw [h]; exact (seqOk_absorbRounds_iff (by exact busy)).mpr ⟨valid, isLast, whole⟩

/-- A block taken off a whole number of blocks leaves a whole number of blocks. -/
theorem absorbStep_seqOk {s : State} (busy : s.seq.activity = some .absorb)
    (ok : SeqOk s.cfg s.seq) : SeqOk s.cfg (absorbStep s).seq := by
  obtain ⟨valid, -, -, whole⟩ := (seqOk_absorb_iff busy).mp ok
  by_cases done : s.seq.pending = []
  · rw [absorbStep, if_pos done]; exact seqOk_idle _
  · rw [absorbStep, if_neg done]
    refine (seqOk_absorbRounds_iff rfl).mpr ⟨valid, rfl, ?_⟩
    rw [State.setSeq_seq, List.length_drop]
    exact Nat.sub_mod_eq_zero_of_mod_eq (whole.trans (Nat.mod_self _).symm)

theorem fineStep_seqOk {a : Activity} {s : State} (busy : s.seq.activity = some a)
    (ok : SeqOk s.cfg s.seq) : ∃ t, fineStep a s = .next t ∧ SeqOk s.cfg t.seq := by
  cases a with
  | accepted f => exact beginFrame_seqOk f s
  | rounds last => exact ⟨_, rfl, stageStep_rounds_seqOk busy ok⟩
  | reply => exact ⟨_, rfl, seqOk_idle _⟩
  | absorb => exact ⟨_, rfl, absorbStep_seqOk busy ok⟩
  | absorbRounds last => exact ⟨_, rfl, stageStep_absorbRounds_seqOk busy ok⟩

/-! ### The invariant as a whole -/

/-- Settles O2: nothing has gone wrong and nothing has been sent. -/
theorem invAtReset : Obligations.InvAtReset :=
  ⟨statusOk_zero, seqOk_idle _, nofun⟩

/-- Where STATUS and the responses are kept, only the hidden state is to be looked at. -/
theorem StateInv.of_goesOn {s t : State} (inv : StateInv s) (goesOn : GoesOn s t)
    (seq : SeqOk s.cfg t.seq) : StateInv t := by
  obtain ⟨status, -, responses⟩ := inv
  obtain ⟨sameStatus, sameResponses, sameCfg, -, sameReceived⟩ := goesOn
  rw [StateInv, sameStatus, sameResponses, sameReceived, sameCfg]
  exact ⟨status, seq, responses⟩

/-- A command may end with any STATUS and any response that meet the invariant. -/
theorem StateInv.of_response {s t : State} {r : Response} (inv : StateInv s)
    (status : StatusOk t.status) (outside : Outside s t)
    (sent : t.responses = s.responses ++ [r]) (response : ResponseOk s.cfg r) : StateInv t := by
  obtain ⟨-, -, responses⟩ := inv
  obtain ⟨idle, sameCfg, -, sameReceived⟩ := outside
  rw [StateInv, idle, sent, sameReceived, sameCfg]
  refine ⟨status, seqOk_idle _, fun r' mem => ?_⟩
  simp only [List.mem_append, List.mem_singleton] at mem responses
  obtain (old | rfl) | old := mem
  · exact responses r' (.inl old)
  · exact response
  · exact responses r' (.inr old)

theorem runFrame_keeps_inv (f : Frame) {s : State} (inv : StateInv s) :
    ∃ t, runFrame f s = .next t ∧ StateInv t := by
  obtain ⟨t, r, answer, sent, response⟩ := runFrame_response f s
  obtain ⟨t', answer', outside⟩ := runFrame_outside f s
  obtain ⟨t'', answer'', status⟩ := runFrame_status f s
  cases answer.symm.trans answer'
  cases answer.symm.trans answer''
  have ⟨before, _, _⟩ := inv
  have after : StatusOk t.status := by
    obtain update | ⟨-, zero⟩ := status
    · exact update.keeps_statusOk before
    · exact zero ▸ statusOk_zero
  exact ⟨t, answer, inv.of_response after outside sent response⟩

theorem succeed_keeps_inv {s : State} {payload : Bits} (inv : StateInv s)
    (length : payload.length ∈ [0, 32, s.cfg.d, 1600]) : StateInv (s.succeed payload) := by
  have ⟨before, _, _⟩ := inv
  have update : StatusUpdate s.status (s.succeed payload).status := .inr (.inl rfl)
  exact inv.of_response (update.keeps_statusOk before) ⟨rfl, rfl, rfl, rfl⟩ rfl
    (responseOk_of_success length)

theorem fineStep_keeps_inv {a : Activity} {s : State} (busy : s.seq.activity = some a)
    (inv : StateInv s) : ∃ t, fineStep a s = .next t ∧ StateInv t := by
  have ⟨_, fits, _⟩ := inv
  obtain ⟨f, -, h⟩ | ⟨t, h, goesOn⟩ | ⟨-, h⟩ | ⟨rfl, h⟩ := fineStep_cases a s
  · rw [h]; exact runFrame_keeps_inv f inv
  · obtain ⟨u, answer, seq⟩ := fineStep_seqOk busy fits
    cases h.symm.trans answer
    exact ⟨t, h, inv.of_goesOn goesOn seq⟩
  · exact ⟨_, h, succeed_keeps_inv inv (by simp)⟩
  · obtain ⟨valid, -⟩ := (seqOk_absorb_iff busy).mp fits
    exact ⟨_, h, succeed_keeps_inv inv (by simp [length_squeeze valid])⟩

theorem advance_keeps_inv {s : State} (inv : StateInv s) :
    ∃ t, advance s = .next t ∧ StateInv t := by
  cases activity : s.seq.activity with
  | none => exact ⟨s, advance_of_ready s activity, inv⟩
  | some a =>
    rw [advance_of_activity s a activity]
    exact fineStep_keeps_inv activity inv

/-- The host's remaining moves do not matter to the invariant. -/
theorem StateInv.setHost {s : State} (inv : StateInv s) (rest : List HostMove) :
    StateInv (s.setHost rest) := inv

theorem resetBlock_keeps_inv {s : State} (inv : StateInv s) : StateInv s.resetBlock := by
  obtain ⟨-, -, responses⟩ := inv
  exact ⟨statusOk_zero, seqOk_idle _, responses⟩

theorem takeResponse_keeps_inv {s : State} {r : Response} {rs : List Response} (inv : StateInv s)
    (sent : s.responses = r :: rs) : StateInv (s.takeResponse r rs) := by
  obtain ⟨status, seq, responses⟩ := inv
  refine ⟨status, seq, fun r' mem => responses r' ?_⟩
  rw [sent]
  simp only [State.takeResponse_responses, State.takeResponse_received, List.mem_append,
    List.mem_cons, List.not_mem_nil, or_false] at mem ⊢
  tauto

theorem accept_keeps_inv (f : Frame) {s : State} (inv : StateInv s) : StateInv (accept f s) :=
  inv.of_goesOn ⟨rfl, rfl, rfl, rfl, rfl⟩ rfl

theorem step_keeps_inv {s : State} (inv : StateInv s) : ∃ t, step s = .next t ∧ StateInv t := by
  obtain ⟨rest, -, h⟩ | ⟨r, rs, rest, -, sent, h⟩ | ⟨f, rest, -, -, h⟩ | ⟨f, rest, -, -, h⟩ |
    ⟨rest, -, h⟩ | ⟨-, h⟩ := step_cases s
  · exact ⟨_, h, resetBlock_keeps_inv (inv.setHost rest)⟩
  · exact ⟨_, h, takeResponse_keeps_inv (inv.setHost rest) sent⟩
  · rw [h]; exact runFrame_keeps_inv f (inv.setHost rest)
  · exact ⟨_, h, accept_keeps_inv f (inv.setHost rest)⟩
  · rw [h]; exact advance_keeps_inv (inv.setHost rest)
  · rw [h]; exact advance_keeps_inv inv

/-- Settles O12: a command ends with a STATUS and a response that meet the invariant, a finer step
before the end keeps the hidden state in step with the command, and the host's moves do no harm. -/
theorem stepKeepsInv : Obligations.StepKeepsInv := by
  intro s t inv h
  obtain ⟨u, answer, kept⟩ := step_keeps_inv inv
  cases h.symm.trans answer
  exact kept

end Sys2Proof.Machine

/-! # Memory (spec/20_memory.md): the bytes of `S`, and the commands that may be repeated

A byte of a packed register is a slice of the register. A command repeats without effect when it acts
on `S` and on STATUS as idempotent functions that its operands and the configuration alone determine. -/

namespace Sys2Proof.Machine

/-! ### Lanes and bytes (R45, R46) -/

/-- A slice of a register, read from the sequence of the whole register. -/
theorem ofBits_slice_toBits {w : Nat} (v : BitVec w) (start len : Nat) (fits : start + len ≤ w) :
    ofBits len (((toBits v).drop start).take len) = v.extractLsb' start len := by
  apply BitVec.eq_of_getLsbD_eq
  intro p hp
  rw [getLsbD_ofBits, List.getElem?_take_of_lt hp, List.getElem?_drop,
    getElem?_toBits v (start + p) (by omega), Option.getD_some, BitVec.getLsbD_extractLsb']

/-- Byte `k` of a packed register is its bits `8·k .. 8·k+7` (R45). -/
theorem getElem?_bitsToBytes_toBits {w : Nat} (v : BitVec w) (k : Nat) (fits : 8 * k + 8 ≤ w) :
    (bitsToBytes (toBits v))[k]? = some (v.extractLsb' (8 * k) 8) := by
  have inRange : k < w / 8 := by omega
  rw [bitsToBytes, length_toBits, List.getElem?_map, List.getElem?_range inRange, Option.map_some,
    ofBits_slice_toBits v (8 * k) 8 fits]

/-- Byte `k` of a lane is the slice of `S` that begins at the lane's position `8·k`. -/
theorem extractLsb'_lane (A : StateReg) (x y : Fin 5) (k : Nat) (h : k < 8) :
    (lane A x y).extractLsb' (8 * k) 8 = A.extractLsb' (pos x y (8 * k)) 8 := by
  apply BitVec.eq_of_getLsbD_eq
  intro p hp
  have inLane : 8 * k + p < 64 := by omega
  rw [BitVec.getLsbD_extractLsb', BitVec.getLsbD_extractLsb', getLsbD_lane, decide_eq_true inLane,
    Bool.true_and, bitAt, pos, pos, Nat.add_assoc]

/-- Settles O42: byte `8·(5·y + x) + k` of `S` and byte `k` of the lane are the same slice of `S`. -/
theorem lanesAreLittleEndian : Obligations.LanesAreLittleEndian := by
  intro A x y k h
  have start : 8 * (8 * (5 * y.val + x.val) + k) = pos x y (8 * k) := by simp only [pos]; omega
  have fits : pos x y (8 * k) + 8 ≤ 1600 := pos_lt x y (8 * k + 7) (by omega)
  rw [getElem?_bitsToBytes_toBits A _ (by rwa [start]), start, extractLsb'_lane A x y k h]

/-! ### Repeated commands (R49) -/

theorem statusOk_statusOk (st : StatusReg) : statusOk (statusOk st) = statusOk st := by
  apply BitVec.eq_of_getLsbD_eq
  intro p hp
  rw [getLsbD_statusOk _ p hp, getLsbD_statusOk st p hp, ← Bool.and_assoc, Bool.and_self]

theorem statusError_statusError (st : StatusReg) (e : Error) :
    statusError (statusError st e) e = statusError st e := by
  apply BitVec.eq_of_getLsbD_eq
  intro p hp
  rw [getLsbD_statusError _ e p hp, getLsbD_statusError st e p hp]
  split
  · rfl
  · rw [← Bool.or_assoc, Bool.or_self]

/-- In the configuration `cfg` the command writes `S` by `f` and STATUS by `g`, whatever the state. -/
def ActsAs (i : Instr) (cfg : Config) (f : StateReg → StateReg) (g : StatusReg → StatusReg) : Prop :=
  ∀ s : State, s.cfg = cfg → ∃ t, exec i s = .next t ∧ t.S = f s.S ∧ t.status = g s.status

/-- A second run of the command answers a next state with the `S` and STATUS of the first. -/
def RepeatsFrom (i : Instr) (s : State) : Prop :=
  ∃ t u, exec i s = .next t ∧ exec i t = .next u ∧ u.S = t.S ∧ u.status = t.status

theorem exec_keeps_cfg {i : Instr} {s t : State} (h : exec i s = .next t) : t.cfg = s.cfg := by
  obtain ⟨u, answer, -, cfg, -⟩ := exec_outside i s
  cases h.symm.trans answer
  exact cfg

/-- The one reason why commands repeat: the first run keeps the configuration, so the second applies
the same two functions. -/
theorem ActsAs.repeatsFrom {i : Instr} {s : State} {f : StateReg → StateReg}
    {g : StatusReg → StatusReg} (acts : ActsAs i s.cfg f g) (hf : ∀ A, f (f A) = f A)
    (hg : ∀ st, g (g st) = g st) : RepeatsFrom i s := by
  obtain ⟨t, first, S, status⟩ := acts s rfl
  obtain ⟨u, second, S', status'⟩ := acts t (exec_keeps_cfg first)
  exact ⟨t, u, first, second, by rw [S', S, hf], by rw [status', status, hg]⟩

/-- A command that raises the same error in every state of the configuration. -/
theorem repeatsFrom_of_raise {i : Instr} {s : State} (e : Error)
    (h : ∀ u : State, u.cfg = s.cfg → exec i u = .next (u.raise e)) : RepeatsFrom i s :=
  ActsAs.repeatsFrom (f := id) (g := (statusError · e)) (fun u cfg => ⟨_, h u cfg, rfl, rfl⟩)
    (fun _ => rfl) (fun st => statusError_statusError st e)

/-- A command that loads the same value in every state of the configuration. -/
theorem repeatsFrom_of_load {i : Instr} {s : State} (v : StateReg)
    (h : ∀ u : State, u.cfg = s.cfg → ∃ payload, exec i u = .next ((u.setS v).succeed payload)) :
    RepeatsFrom i s := by
  refine ActsAs.repeatsFrom (f := fun _ => v) (g := statusOk) (fun u cfg => ?_) (fun _ => rfl)
    statusOk_statusOk
  obtain ⟨payload, answer⟩ := h u cfg
  exact ⟨_, answer, rfl, rfl⟩

/-- A command that absorbs the same sequence in every state of the configuration (R150). -/
theorem repeatsFrom_of_finishSponge {i : Instr} {s : State} (n : Bits)
    (h : ∀ u : State, u.cfg = s.cfg → exec i u = .next (finishSponge n u)) : RepeatsFrom i s :=
  repeatsFrom_of_load (spongeState s.cfg n) fun u cfg =>
    ⟨squeeze s.cfg (spongeState s.cfg n), by rw [h u cfg, finishSponge, cfg]⟩

theorem rdsr_repeatsFrom (n : BitVec 5) (s : State) : RepeatsFrom (.rdsr n) s := by
  by_cases zero : n = 0
  · exact ActsAs.repeatsFrom (f := id) (g := id)
      (fun u _ => ⟨u.respond 0 (toBits u.status), by rw [exec, execRdsr, if_pos zero], rfl, rfl⟩)
      (fun _ => rfl) (fun _ => rfl)
  · exact repeatsFrom_of_raise .illegalCommand fun u _ => by rw [exec, execRdsr, if_neg zero]

theorem lds_repeatsFrom (bs : Bits) (s : State) : RepeatsFrom (.lds bs) s := by
  by_cases whole : bs.length = 1600
  · exact repeatsFrom_of_load (ofBits 1600 bs) fun u _ => ⟨[], by rw [exec, execLds, if_pos whole]⟩
  · exact repeatsFrom_of_raise .invalidInputLength fun u _ => by rw [exec, execLds, if_neg whole]

theorem sts_repeatsFrom (s : State) : RepeatsFrom .sts s :=
  ActsAs.repeatsFrom (f := id) (fun _ _ => ⟨_, rfl, rfl, rfl⟩) (fun _ => rfl) statusOk_statusOk

theorem sponge_repeatsFrom (n : Bits) (s : State) : RepeatsFrom (.sponge n) s := by
  cases valid : cfgValid s.cfg with
  | false =>
    exact repeatsFrom_of_raise .invalidParameter fun u cfg => by
      rw [exec, execSponge, cfg, if_pos valid]
  | true =>
    exact repeatsFrom_of_finishSponge n fun u cfg => by
      rw [exec, execSponge, cfg, if_neg (by simp [valid])]

theorem hash_repeatsFrom (m : Bits) (s : State) : RepeatsFrom (.hash m) s := by
  cases valid : cfgValid s.cfg with
  | false =>
    exact repeatsFrom_of_raise .invalidParameter fun u cfg => by
      rw [exec, execHash, cfg, if_pos valid]
  | true =>
    by_cases ragged : m.length % 8 ≠ 0
    · exact repeatsFrom_of_raise .encodingError fun u cfg => by
        rw [exec, execHash, cfg, if_neg (by simp [valid]), if_pos ragged]
    · exact repeatsFrom_of_finishSponge (withSuffix m) fun u cfg => by
        rw [exec, execHash, cfg, if_neg (by simp [valid]), if_neg ragged]

/-- Settles O47: each of the six commands acts on `S` and STATUS as idempotent functions. -/
theorem repeatingIsIdempotent : Obligations.RepeatingIsIdempotent := by
  intro i s mem
  cases i with
  | init => exact ⟨_, _, rfl, rfl, rfl, rfl⟩
  | rdsr n => exact rdsr_repeatsFrom n s
  | lds bs => exact lds_repeatsFrom bs s
  | sts => exact sts_repeatsFrom s
  | sponge n => exact sponge_repeatsFrom n s
  | hash m => exact hash_repeatsFrom m s
  | theta | rhopi | chi | iota | round | perm => simp [Instr.opcode] at mem

end Sys2Proof.Machine

/-! # Encoding (spec/30_encoding.md): the decoder and the encoder, and the step of a frame

What the decoder answers is said once for each of its checks (R71), and that a command means that all
four were passed; the round trip of decoder and encoder follows. Then what a sent frame does, and the
pseudo-instructions as lists of transformations of `S`. -/

namespace Sys2Proof

/-! ### The decoder, check by check (R71) -/

theorem decode_of_reserved {f : Frame} (h : hdrRsv f.hdr ≠ 0) :
    decode f = .illegal .reservedBits := by
  rw [decode, if_pos h]

theorem decode_of_unassigned {f : Frame} (rsv : hdrRsv f.hdr = 0)
    (op : opcodeOf (hdrOp f.hdr) = none) : decode f = .illegal .unassignedOpcode := by
  simp [decode, rsv, op]

theorem decode_of_imm_illegal {f : Frame} {o : Opcode} (rsv : hdrRsv f.hdr = 0)
    (op : opcodeOf (hdrOp f.hdr) = some o) (illegal : o.immLegal (hdrImm f.hdr) = false) :
    decode f = .illegal .immediateOutOfRange := by
  rw [decode_of_opcode f o rsv op, if_pos illegal]

theorem decode_of_payload_unexpected {f : Frame} {o : Opcode} (rsv : hdrRsv f.hdr = 0)
    (op : opcodeOf (hdrOp f.hdr) = some o) (legal : o.immLegal (hdrImm f.hdr) = true)
    (unexpected : o.takesPayload = false ∧ f.payload ≠ []) :
    decode f = .illegal .unexpectedPayload := by
  rw [decode_of_opcode f o rsv op, if_neg (by simp [legal]), if_pos unexpected]

theorem decode_of_legal {f : Frame} {o : Opcode} (rsv : hdrRsv f.hdr = 0)
    (op : opcodeOf (hdrOp f.hdr) = some o) (legal : o.immLegal (hdrImm f.hdr) = true)
    (fits : o.takesPayload = false → f.payload = []) :
    decode f = .command (o.instr (hdrImm f.hdr) f.payload) := by
  rw [decode_of_opcode f o rsv op, if_neg (by simp [legal]),
    if_neg fun ⟨takesNone, nonempty⟩ => nonempty (fits takesNone)]

/-- A frame that decodes to a command has passed the four checks of R71. -/
theorem checks_of_decode_eq_command {f : Frame} {i : Instr} (h : decode f = .command i) :
    hdrRsv f.hdr = 0 ∧ ∃ o, opcodeOf (hdrOp f.hdr) = some o ∧
      o.immLegal (hdrImm f.hdr) = true ∧ (o.takesPayload = false → f.payload = []) ∧
      o.instr (hdrImm f.hdr) f.payload = i := by
  by_cases rsv : hdrRsv f.hdr = 0
  case neg => cases h.symm.trans (decode_of_reserved rsv)
  cases op : opcodeOf (hdrOp f.hdr) with
  | none => cases h.symm.trans (decode_of_unassigned rsv op)
  | some o =>
    cases legal : o.immLegal (hdrImm f.hdr) with
    | false => cases h.symm.trans (decode_of_imm_illegal rsv op legal)
    | true =>
      by_cases unexpected : o.takesPayload = false ∧ f.payload ≠ []
      · cases h.symm.trans (decode_of_payload_unexpected rsv op legal unexpected)
      · have fits : o.takesPayload = false → f.payload = [] := by simpa using unexpected
        cases h.symm.trans (decode_of_legal rsv op legal fits)
        exact ⟨rsv, o, rfl, legal, fits, rfl⟩

/-! ### An instruction and its opcode, immediate and payload -/

/-- An instruction is made of its opcode, immediate and payload. -/
theorem Instr.instr_parts (i : Instr) : i.opcode.instr i.imm i.payload = i := by cases i <;> rfl

/-- A well-formed instruction is one whose immediate is legal for its opcode (R63). -/
theorem Instr.immLegal_imm (i : Instr) : i.opcode.immLegal i.imm = i.wf := by cases i <;> rfl

theorem Instr.payload_eq_nil (i : Instr) (h : i.opcode.takesPayload = false) : i.payload = [] := by
  cases i with
  | lds | sponge | hash => cases h
  | init | rdsr | sts | theta | rhopi | chi | iota | round | perm => rfl

@[simp] theorem Opcode.opcode_instr (o : Opcode) (imm : BitVec 5) (payload : Bits) :
    (o.instr imm payload).opcode = o := by cases o <;> rfl

/-- A legal immediate is the instruction's: 0 where the command has none (R63). -/
theorem Opcode.imm_instr (o : Opcode) (imm : BitVec 5) (payload : Bits)
    (legal : o.immLegal imm = true) : (o.instr imm payload).imm = imm := by
  cases o with
  | rdsr | iota | round => rfl
  | init | lds | sts | theta | rhopi | chi | perm | sponge | hash => exact (eq_of_beq legal).symm

theorem Opcode.payload_instr (o : Opcode) (imm : BitVec 5) (payload : Bits)
    (fits : o.takesPayload = false → payload = []) : (o.instr imm payload).payload = payload := by
  cases o with
  | lds | sponge | hash => rfl
  | init | rdsr | sts | theta | rhopi | chi | iota | round | perm => exact (fits rfl).symm

/-! ### The round trip (R61, R62, R63) -/

/-- The header fields of an encoded instruction, for every constructor. -/
theorem encode_fields (i : Instr) : Laws.HeaderFields.Statement i :=
  Laws.HeaderFields.fields_of_mkHeader i.imm i.opcode

/-- Settles O16: the encoding of a well-formed instruction passes the four checks, and its fields are
the instruction's parts. -/
theorem decodeOfEncode : Obligations.DecodeOfEncode := by
  intro i wf
  obtain ⟨rsv, imm, op⟩ := encode_fields i
  have known : opcodeOf (hdrOp (encode i).hdr) = some i.opcode := op ▸ opcodeOf_value i.opcode
  have legal : i.opcode.immLegal (hdrImm (encode i).hdr) = true :=
    imm ▸ i.immLegal_imm.trans wf
  rw [decode_of_legal rsv known legal i.payload_eq_nil, imm]
  exact congrArg _ i.instr_parts

/-- Settles O17: the fields of a header that passes the four checks are the parts of the instruction,
and a header is made of its fields. -/
theorem encodeOfDecode : Obligations.EncodeOfDecode := by
  intro f i h
  obtain ⟨rsv, o, op, legal, fits, rfl⟩ := checks_of_decode_eq_command h
  have imm := o.imm_instr (hdrImm f.hdr) f.payload legal
  refine ⟨?_, ?_⟩
  · rw [← Instr.immLegal_imm, Opcode.opcode_instr, imm, legal]
  · rw [encode, imm, Opcode.opcode_instr, value_of_opcodeOf _ _ op, o.payload_instr _ _ fits, ← rsv,
      mkHeader_fields]

/-! ### The checks of R71 on the header as a number -/

theorem hdrRsv_eq_zero_iff (h : Header) : hdrRsv h = 0 ↔ h.toNat < 8192 := by
  rw [BitVec.toNat_eq, toNat_hdrRsv, BitVec.ofNat_eq_ofNat, BitVec.toNat_zero]
  omega

theorem toNat_hdrImm_of_lt {h : Header} (small : h.toNat < 8192) :
    (hdrImm h).toNat = h.toNat / 256 := by
  rw [toNat_hdrImm]; omega

theorem opcodeOf_eq_none_iff (op : BitVec 8) : opcodeOf op = none ↔
    op.toNat ∉ [0x01, 0x02, 0x10, 0x11, 0x20, 0x21, 0x22, 0x23, 0x28, 0x30, 0x40, 0x41] := by
  revert op; decide

theorem Opcode.immLegal_iff (o : Opcode) (imm : BitVec 5) : o.immLegal imm = true ↔
    imm.toNat ≤ if o.value.toNat = 0x23 ∨ o.value.toNat = 0x28 then 23 else 0 := by
  cases o with
  | iota | round => simp [immLegal, value]
  | init | rdsr | lds | sts | theta | rhopi | chi | perm | sponge | hash =>
    simp [immLegal, value, BitVec.toNat_eq]

theorem Opcode.takesPayload_iff (o : Opcode) : o.takesPayload = true ↔
    o.value.toNat = 0x10 ∨ o.value.toNat = 0x40 ∨ o.value.toNat = 0x41 := by
  cases o <;> decide

/-- A header without reserved bits and with an assigned `op`, read as a number: its opcode, and what
is legal for it. -/
theorem exists_opcode_of_assigned {h : Header} (small : h.toNat < 8192)
    (assigned : opcodeOf (hdrOp h) ≠ none) :
    ∃ o : Opcode, opcodeOf (hdrOp h) = some o ∧ o.value.toNat = h.toNat % 256 ∧
      (o.immLegal (hdrImm h) = true ↔
        h.toNat / 256 ≤ if h.toNat % 256 = 0x23 ∨ h.toNat % 256 = 0x28 then 23 else 0) ∧
      (o.takesPayload = false ↔
        ¬(h.toNat % 256 = 0x10 ∨ h.toNat % 256 = 0x40 ∨ h.toNat % 256 = 0x41)) := by
  obtain ⟨o, op⟩ := Option.ne_none_iff_exists'.mp assigned
  have value : o.value.toNat = h.toNat % 256 := by rw [value_of_opcodeOf _ _ op, toNat_hdrOp]
  refine ⟨o, op, value, ?_, ?_⟩
  · rw [o.immLegal_iff, value, toNat_hdrImm_of_lt small]
  · rw [← Bool.not_eq_true, o.takesPayload_iff, value]

/-- Settles O15: the numbers of the five clauses are the header's fields, and the clauses are the
branches of the decoder. -/
theorem decodeFollowsOrder : Obligations.DecodeFollowsOrder := by
  intro f h known immBound mustBeEmpty
  have rsv : h < 8192 → hdrRsv f.hdr = 0 := (hdrRsv_eq_zero_iff f.hdr).mpr
  have unassigned : opcodeOf (hdrOp f.hdr) = none ↔ h % 256 ∉ known := by
    rw [opcodeOf_eq_none_iff, toNat_hdrOp]
  have assigned : h % 256 ∈ known → opcodeOf (hdrOp f.hdr) ≠ none :=
    fun mem unknown => unassigned.mp unknown mem
  refine ⟨fun big => ?_, fun small unknown => ?_, fun small mem above => ?_,
    fun small mem within empty payload => ?_, fun small mem within fits => ?_⟩
  · exact decode_of_reserved fun zero => big.not_gt ((hdrRsv_eq_zero_iff f.hdr).mp zero)
  · exact decode_of_unassigned (rsv small) (unassigned.mpr unknown)
  · obtain ⟨o, op, -, legal, -⟩ := exists_opcode_of_assigned small (assigned mem)
    exact decode_of_imm_illegal (rsv small) op
      (Bool.eq_false_iff.mpr fun ok => above.not_ge (legal.mp ok))
  · obtain ⟨o, op, -, legal, takesNone⟩ := exists_opcode_of_assigned small (assigned mem)
    exact decode_of_payload_unexpected (rsv small) op (legal.mpr within)
      ⟨takesNone.mpr empty, payload⟩
  · obtain ⟨o, op, value, legal, takesNone⟩ := exists_opcode_of_assigned small (assigned mem)
    have ok := legal.mpr within
    have fits' : o.takesPayload = false → f.payload = [] := fun h => fits (takesNone.mp h)
    refine ⟨_, decode_of_legal (rsv small) op ok fits', ?_, ?_, o.payload_instr _ _ fits'⟩
    · rw [Opcode.opcode_instr, value]
    · rw [o.imm_instr _ _ ok, toNat_hdrImm_of_lt small]

end Sys2Proof

namespace Sys2Proof.Machine

/-! ### A frame sent to a ready block (R15, R65, R71) -/

/-- Settles O7: the step of a ready block runs the frame, and the frame runs its command. -/
theorem stepRunsDecodedInstr : Obligations.StepRunsDecodedInstr := by
  intro s f rest i ready sent command
  exact (step_of_send_ready s f rest ready sent).trans (runFrame_of_command command _)

/-- Settles O8: the step is `raise`, whose effect is an error entry. -/
theorem illegalFrameRaises : Obligations.IllegalFrameRaises := by
  intro s f rest why ready sent illegal
  exact ⟨_, (step_of_send_ready s f rest ready sent).trans (runFrame_of_illegal illegal _),
    endsInError_raise _ .illegalCommand⟩

theorem decodeTableWord_eq_some_iff (nbits w : Nat) (i : Instr) :
    decodeTableWord nbits w = some i ↔ decode (tableFrame nbits w) = .command i := by
  rw [decodeTableWord]
  cases decode (tableFrame nbits w) <;> simp

/-- Settles O9: a placed word is a frame sent to a ready block, so this is O7. -/
theorem placedWordRunsNext : Obligations.PlacedWordRunsNext := by
  intro s w i h
  exact stepRunsDecodedInstr (s.withFetchWord 16 w) _ s.host i rfl rfl
    ((decodeTableWord_eq_some_iff 16 w i).mp h)

/-- Settles O14: seven headers, each decoded by evaluation. -/
theorem specHeadersDecode : Obligations.SpecHeadersDecode := by
  unfold Obligations.SpecHeadersDecode
  decide

/-! ### The pseudo-instructions (R70) -/

/-- The command succeeds from every state, writes `S` by `f` and answers no payload. -/
def Transforms (i : Instr) (f : StateReg → StateReg) : Prop :=
  ∀ s : State, exec i s = .next ((s.setS (f s.S)).succeed [])

theorem transforms_theta : Transforms .theta theta := fun _ => rfl

theorem transforms_rhopi : Transforms .rhopi rhoPi := fun _ => rfl

theorem transforms_chi : Transforms .chi chi := fun _ => rfl

theorem transforms_iota (ir : BitVec 5) (legal : ir.toNat ≤ 23) :
    Transforms (.iota ir) (iota · ⟨ir.toNat, by omega⟩) := fun s => exec_iota_legal s ir legal

theorem transforms_round (ir : BitVec 5) (legal : ir.toNat ≤ 23) :
    Transforms (.round ir) (rnd · ⟨ir.toNat, by omega⟩) := fun s => exec_round_legal s ir legal

theorem transforms_perm : Transforms .perm keccakP := fun _ => rfl

/-- `transforms_round` by the round index. -/
theorem transforms_round_ofNat (k : Fin 24) :
    Transforms (.round (BitVec.ofNat 5 k)) (rnd · k) := by
  have value : (BitVec.ofNat 5 k).toNat = k.val := by
    rw [BitVec.toNat_ofNat]; omega
  simpa only [value] using transforms_round (BitVec.ofNat 5 k) (by omega)

theorem lastResponseCode_succeed (s : State) (payload : Bits) :
    lastResponseCode (s.succeed payload) = 0 := by
  simp [lastResponseCode]

/-- A run goes on after a command that succeeds (R70). -/
theorem Transforms.runInstrs_cons {i : Instr} {f : StateReg → StateReg} (h : Transforms i f)
    (is : List Instr) (s : State) :
    runInstrs (i :: is) s = runInstrs is ((s.setS (f s.S)).succeed []) := by
  simp only [runInstrs, h s, lastResponseCode_succeed, if_true]

/-- Commands that transform `S`, run in order, leave the composition of their transformations. -/
theorem runInstrs_map {α : Type} {i : α → Instr} {f : StateReg → α → StateReg}
    (h : ∀ a, Transforms (i a) (f · a)) (l : List α) (s : State) :
    ∃ t, runInstrs (l.map i) s = .next t ∧ t.S = l.foldl f s.S := by
  induction l generalizing s with
  | nil => exact ⟨s, rfl, rfl⟩
  | cons a l ih =>
    rw [List.map_cons, (h a).runInstrs_cons]
    exact ih _

/-- ROUNDS, over the round indices of `keccakP` (R130). -/
theorem rounds_eq : rounds = (List.finRange 24).map fun k => .round (BitVec.ofNat 5 k) := by decide

/-- STEPS ir leaves the round of `ir` in `S` (R120). -/
theorem runInstrs_steps (s : State) (ir : BitVec 5) (legal : ir.toNat ≤ 23) :
    ∃ t, runInstrs (steps ir) s = .next t ∧ t.S = rnd s.S ⟨ir.toNat, by omega⟩ := by
  rw [steps, transforms_theta.runInstrs_cons, transforms_rhopi.runInstrs_cons,
    transforms_chi.runInstrs_cons, (transforms_iota ir legal).runInstrs_cons]
  exact ⟨_, rfl, rfl⟩

/-- Settles O34: ROUNDS folds the rounds over `S` as PERM does, and STEPS composes a round. -/
theorem pseudoInstrsAgree : Obligations.PseudoInstrsAgree := by
  refine ⟨fun s => ?_, fun s ir legal => ?_⟩
  · obtain ⟨u, run, S⟩ := runInstrs_map transforms_round_ofNat (List.finRange 24) s
    exact ⟨_, u, transforms_perm s, rounds_eq ▸ run, S⟩
  · obtain ⟨u, run, S⟩ := runInstrs_steps s ir legal
    exact ⟨_, u, transforms_round ir legal s, run, S⟩

end Sys2Proof.Machine

/-! # State codec (spec/40_state_codec.md): LDS and STS

Both commands go between a sequence and `S` position by position (R80, R81). The coordinate form of a
claim is its position form at `64·(5·y + x) + z`, and the round trip is that of `ofBits` and `toBits`. -/

namespace Sys2Proof.Machine

/-! ### What the two commands answer (R83, R84) -/

theorem exec_lds_whole (s : State) (bs : Bits) (whole : bs.length = 1600) :
    exec (.lds bs) s = .next ((s.setS (ofBits 1600 bs)).succeed []) := by
  rw [exec, execLds, if_pos whole]

theorem exec_lds_wrong_length (s : State) (bs : Bits) (wrong : bs.length ≠ 1600) :
    exec (.lds bs) s = .next (s.raise .invalidInputLength) := by
  rw [exec, execLds, if_neg wrong]

theorem exec_sts (s : State) : exec .sts s = .next (s.succeed (toBits s.S)) := rfl

/-! ### Their headers (R62) -/

theorem encode_lds (bs : Bits) : encode (.lds bs) = ⟨0x0010, bs⟩ :=
  have header : mkHeader 0 0 Opcode.lds.value = 0x0010 := by decide
  congrArg (Frame.mk · bs) header

theorem encode_sts : encode .sts = ⟨0x0011, []⟩ := by decide

theorem decode_lds (bs : Bits) : decode ⟨0x0010, bs⟩ = .command (.lds bs) := by
  rw [← encode_lds, decodeOfEncode _ rfl]

theorem decode_sts : decode ⟨0x0011, []⟩ = .command .sts := by
  rw [← encode_sts, decodeOfEncode _ rfl]

/-- STS takes no payload (R47), so its header with one stops at step 4 of R71. -/
theorem decode_sts_of_payload (bs : Bits) (nonempty : bs ≠ []) :
    decode ⟨0x0011, bs⟩ = .illegal .unexpectedPayload := by
  have passed : hdrRsv 0x0011 = 0 ∧ opcodeOf (hdrOp 0x0011) = some .sts ∧
      Opcode.sts.immLegal (hdrImm 0x0011) = true := by decide
  obtain ⟨rsv, op, legal⟩ := passed
  exact decode_of_payload_unexpected rsv op legal ⟨rfl, nonempty⟩

/-! ### Positions and coordinates (R80, R81) -/

/-- Position `p` of a sequence that fills the register becomes bit `p`. -/
theorem getElem?_eq_getLsbD_ofBits {w : Nat} {bs : Bits} (full : bs.length = w) {p : Nat}
    (h : p < w) : bs[p]? = some ((ofBits w bs).getLsbD p) := by
  rw [← getElem?_toBits _ p h, toBits_ofBits w bs full]

/-- A sequence that agrees with `S` at every position holds `A[x,y,z]` at `64·(5·y + x) + z`. -/
theorem getElem?_eq_bitAt {bs : Bits} {A : StateReg}
    (agree : ∀ p < 1600, bs[p]? = some (A.getLsbD p)) (x y : Fin 5) (z : Fin 64) :
    bs[64 * (5 * y.val + x.val) + z.val]? = some (bitAt A x y z) :=
  agree (pos x y z) (pos_lt x y z z.isLt)

/-- Settles O20: the length check, then a load of every position at once. -/
theorem ldsLoadsState : Obligations.LdsLoadsState := by
  refine ⟨decode_lds, fun s bs whole => ?_, fun s bs wrong => ?_⟩
  · have agree : ∀ p < 1600, bs[p]? = some ((ofBits 1600 bs).getLsbD p) :=
      fun _ h => getElem?_eq_getLsbD_ofBits whole h
    exact ⟨_, exec_lds_whole s bs whole, endsOk_succeed s _ [], agree, getElem?_eq_bitAt agree⟩
  · exact ⟨_, exec_lds_wrong_length s bs wrong, endsInError_raise s .invalidInputLength⟩

/-- Settles O21: the payload is `S` as a sequence. -/
theorem stsReturnsState : Obligations.StsReturnsState := by
  refine ⟨decode_sts, decode_sts_of_payload, fun s => ?_⟩
  have agree : ∀ p < 1600, (toBits s.S)[p]? = some (s.S.getLsbD p) := getElem?_toBits s.S
  exact ⟨_, toBits s.S, exec_sts s, endsOk_succeed_same s _, rfl, length_toBits s.S, agree,
    getElem?_eq_bitAt agree⟩

/-- Settles O22: `toBits` and `ofBits` are inverse to each other at the width of `S` (R82). -/
theorem codecRoundTrip : Obligations.CodecRoundTrip := by
  refine ⟨fun s bs whole => ?_, fun s => ?_⟩
  · refine ⟨_, _, exec_lds_whole s bs whole, exec_sts _, ?_⟩
    rw [State.succeed_responses, State.succeed_S, State.setS_S, toBits_ofBits 1600 bs whole]
  · refine ⟨_, toBits s.S, _, exec_sts s, rfl, exec_lds_whole _ _ (length_toBits s.S), ?_⟩
    rw [State.succeed_S, State.setS_S, ofBits_toBits]

end Sys2Proof.Machine

/-! # Theta (spec/41_theta.md)

The step is proved once for a lane (R92) and once for a bit (R90). THETA is the bit form; linearity
and the states with even columns (R93) follow from the lane form, since `C` and `D` are linear. -/

namespace Sys2Proof.Machine

/-! ### Lanes under xor (R92) -/

/-- Two register values with the same lanes are equal. -/
theorem ext_lane {A B : StateReg} (h : ∀ x y : Fin 5, lane A x y = lane B x y) : A = B := by
  apply ext_bitAt
  intro x y z hz
  have sameBit : (lane A x y).getLsbD z = (lane B x y).getLsbD z := by rw [h]
  simpa only [getLsbD_lane, hz, decide_true, Bool.true_and] using sameBit

theorem lane_xor (A B : StateReg) (x y : Fin 5) : lane (A ^^^ B) x y = lane A x y ^^^ lane B x y :=
  BitVec.extractLsb'_xor

theorem rotl_xor (v w : Lane) (n : Nat) (hn : n < 64) : rotl (v ^^^ w) n = rotl v n ^^^ rotl w n := by
  apply BitVec.eq_of_getLsbD_eq
  intro z hz
  simp only [BitVec.getLsbD_xor, getLsbD_rotl _ n z hn hz]

/-! ### Column parities and diffusion terms -/

/-- `C[x,z]` (R90): the parity of the column of `x` and `z`. -/
def columnParity (A : StateReg) (x : Fin 5) (z : Nat) : Bool :=
  bitAt A x 0 z ^^ bitAt A x 1 z ^^ bitAt A x 2 z ^^ bitAt A x 3 z ^^ bitAt A x 4 z

theorem getLsbD_thetaC (A : StateReg) (x : Fin 5) (z : Nat) (hz : z < 64) :
    (thetaC A x).getLsbD z = columnParity A x z := by
  simp only [thetaC, columnParity, BitVec.getLsbD_xor, getLsbD_lane, hz, decide_true, Bool.true_and]

/-- The rotation by one reads the next lower `z`, modulo 64. -/
theorem getLsbD_thetaD (A : StateReg) (x : Fin 5) (z : Fin 64) :
    (thetaD A x).getLsbD z =
      (columnParity A (x - 1) z ^^ columnParity A (x + 1) (z - 1 : Fin 64)) := by
  have below : (z.val + (64 - 1)) % 64 = (z - 1 : Fin 64).val := by
    rw [Fin.val_sub, Nat.add_comm]; rfl
  rw [thetaD, BitVec.getLsbD_xor, getLsbD_rotl _ 1 z (by decide) z.isLt, below,
    getLsbD_thetaC A _ z z.isLt, getLsbD_thetaC A _ _ (z - 1).isLt]

theorem thetaC_xor (A B : StateReg) (x : Fin 5) : thetaC (A ^^^ B) x = thetaC A x ^^^ thetaC B x := by
  simp only [thetaC, lane_xor]
  ac_rfl

theorem thetaD_xor (A B : StateReg) (x : Fin 5) : thetaD (A ^^^ B) x = thetaD A x ^^^ thetaD B x := by
  simp only [thetaD, thetaC_xor, rotl_xor _ _ 1 (by decide)]
  ac_rfl

theorem thetaD_eq_zero {A : StateReg} (even : ∀ x, thetaC A x = 0) (x : Fin 5) : thetaD A x = 0 := by
  rw [thetaD, even, even]
  decide

/-! ### The step: by lanes, by bits -/

theorem lane_theta (A : StateReg) (x y : Fin 5) : lane (theta A) x y = lane A x y ^^^ thetaD A x :=
  lane_ofLanes _ x y

theorem bitAt_theta (A : StateReg) (x y : Fin 5) (z : Fin 64) :
    bitAt (theta A) x y z =
      (bitAt A x y z ^^ (columnParity A (x - 1) z ^^ columnParity A (x + 1) (z - 1 : Fin 64))) := by
  rw [theta, bitAt_ofLanes _ x y z z.isLt, BitVec.getLsbD_xor, getLsbD_thetaD, getLsbD_lane,
    decide_eq_true z.isLt, Bool.true_and]

theorem decode_theta : decode ⟨0x0020, []⟩ = .command .theta := by decide

/-- Settles O23: the command writes `theta S` into `S`, and the claim is the bit form of `theta`. -/
theorem thetaMixesColumns : Obligations.ThetaMixesColumns :=
  ⟨decode_theta, fun s => ⟨_, transforms_theta s, endsOk_succeed s _ [], bitAt_theta s.S⟩⟩

/-- R93 (a): a lane of the result is linear in the lane and in `D`. -/
theorem theta_xor (A B : StateReg) : theta (A ^^^ B) = theta A ^^^ theta B := by
  apply ext_lane
  intro x y
  simp only [lane_theta, lane_xor, thetaD_xor]
  ac_rfl

/-- R93 (b): with every column even, `D` is zero. -/
theorem theta_eq_self {A : StateReg} (even : ∀ x, thetaC A x = 0) : theta A = A := by
  apply ext_lane
  intro x y
  rw [lane_theta, thetaD_eq_zero even]
  exact BitVec.xor_zero

/-- Settles O24: the xor of the five lanes of `x` is `C[x]`. -/
theorem thetaIsLinear : Obligations.ThetaIsLinear :=
  ⟨theta_xor, fun _ even => theta_eq_self even⟩

end Sys2Proof.Machine

/-! # Rho and pi (spec/42_rho_pi.md)

Each of the two steps is proved once for a bit (R95, R98), and RhoPi (R100) is their composition. The
tables of lane numbers (R96, R99) are the two steps at the lane `5·y + x`. As a map of positions, RhoPi
is a bijection because its coordinates can be recovered one after another: x, then y, then z. -/

namespace Sys2Proof.Machine

/-! ### The two steps by bits -/

/-- A rotation by an offset is never by the full width (R101). -/
theorem offset_lt (x y : Fin 5) : offset x y < 64 := by
  revert x y
  decide

/-- The bit of a lane that rho moves to `z` (R95). -/
def rhoSource (x y : Fin 5) (z : Fin 64) : Fin 64 := z - Fin.ofNat 64 (offset x y)

/-- R97: the bit number that rho reads, without the wrap of `Fin 64`. -/
theorem val_rhoSource (x y : Fin 5) (z : Fin 64) :
    (rhoSource x y z).val = (z.val + (64 - offset x y)) % 64 := by
  rw [rhoSource, Fin.val_sub, Fin.val_ofNat, Nat.mod_eq_of_lt (offset_lt x y), Nat.add_comm]

theorem bitAt_rho (A : StateReg) (x y : Fin 5) (z : Fin 64) :
    bitAt (rho A) x y z = bitAt A x y (rhoSource x y z) := by
  rw [rho, bitAt_ofLanes _ x y z z.isLt, getLsbD_rotl _ _ z (offset_lt x y) z.isLt, ← val_rhoSource,
    getLsbD_lane, decide_eq_true (rhoSource x y z).isLt, Bool.true_and]

theorem bitAt_pi (A : StateReg) (x y : Fin 5) (z : Fin 64) :
    bitAt (pi A) x y z = bitAt A (x + 3 * y) x z := by
  rw [pi, bitAt_ofLanes _ x y z z.isLt, getLsbD_lane, decide_eq_true z.isLt, Bool.true_and]

/-- R100 by bits: pi names the lane, and rho the bit in it. -/
theorem bitAt_rhoPi (A : StateReg) (x y : Fin 5) (z : Fin 64) :
    bitAt (rhoPi A) x y z = bitAt A (x + 3 * y) x (rhoSource (x + 3 * y) x z) := by
  rw [rhoPi, bitAt_pi, bitAt_rho]

/-- Settles O25: the bit forms of the two steps, and the definition of `rhoPi`. -/
theorem rhoThenPi : Obligations.RhoThenPi := ⟨bitAt_rho, bitAt_pi, fun _ => rfl⟩

/-! ### RHOPI by lane numbers -/

/-- `src[i]` (R99): the lane that pi moves to lane `i`. -/
def sourceLanes : List Nat :=
  [0, 6, 12, 18, 24, 3, 9, 10, 16, 22, 1, 7, 13, 19, 20, 4, 5, 11, 17, 23, 2, 8, 14, 15, 21]

/-- The offsets of R96 by lane number. -/
def laneOffsets : List Nat :=
  [0, 1, 62, 28, 27, 36, 44, 6, 55, 20, 3, 10, 43, 25, 39, 41, 45, 15, 21, 8, 18, 2, 61, 56, 14]

theorem getElem?_sourceLanes (x y : Fin 5) :
    sourceLanes[5 * y.val + x.val]? = some (5 * x.val + (x + 3 * y).val) := by
  revert x y
  decide

theorem getElem?_laneOffsets (x y : Fin 5) :
    laneOffsets[5 * y.val + x.val]? = some (offset x y) := by
  revert x y
  decide

/-- A lane number names its lane (R9). -/
theorem exists_lane_of_lt {i : Nat} (h : i < 25) : ∃ x y : Fin 5, i = 5 * y.val + x.val :=
  ⟨⟨i % 5, by omega⟩, ⟨i / 5, by omega⟩, (Nat.div_add_mod i 5).symm⟩

/-- The bit form of RhoPi by the tables of R99 and R96. -/
theorem getLsbD_rhoPi (A : StateReg) (i z src off : Nat) (inLanes : i < 25) (inLane : z < 64)
    (source : sourceLanes[i]? = some src) (rotation : laneOffsets[src]? = some off) :
    (rhoPi A).getLsbD (64 * i + z) = A.getLsbD (64 * src + (z + 64 - off) % 64) := by
  obtain ⟨x, y, rfl⟩ := exists_lane_of_lt inLanes
  obtain rfl : 5 * x.val + (x + 3 * y).val = src :=
    Option.some.inj ((getElem?_sourceLanes x y).symm.trans source)
  obtain rfl : offset (x + 3 * y) x = off :=
    Option.some.inj ((getElem?_laneOffsets (x + 3 * y) x).symm.trans rotation)
  rw [Nat.add_sub_assoc (offset_lt (x + 3 * y) x).le, ← val_rhoSource (x + 3 * y) x ⟨z, inLane⟩]
  exact bitAt_rhoPi A x y ⟨z, inLane⟩

theorem decode_rhopi : decode ⟨0x0021, []⟩ = .command .rhopi := by decide

/-- Settles O26: the command writes `rhoPi S` into `S`, and the claim is its form by lane numbers. -/
theorem rhopiMovesLanes : Obligations.RhopiMovesLanes :=
  ⟨decode_rhopi, fun s => ⟨_, transforms_rhopi s, endsOk_succeed s _ [], getLsbD_rhoPi s.S⟩⟩

/-! ### RhoPi as a map of positions -/

/-- Coordinates and positions correspond one to one (R80): `(y, x, z)`, the slowest first. -/
def coordinatesEquiv : Fin 5 × Fin 5 × Fin 64 ≃ Fin 1600 :=
  ((Equiv.refl (Fin 5)).prodCongr finProdFinEquiv).trans finProdFinEquiv

theorem val_coordinatesEquiv (y x : Fin 5) (z : Fin 64) :
    (coordinatesEquiv (y, x, z)).val = pos x y z := by
  have value : (coordinatesEquiv (y, x, z)).val = z.val + 64 * x.val + 5 * 64 * y.val := rfl
  rw [value, pos]
  omega

/-- The coordinates of the bit that RhoPi moves to `(y, x, z)` (R100). -/
def rhoPiSource : Fin 5 × Fin 5 × Fin 64 → Fin 5 × Fin 5 × Fin 64
  | (y, x, z) => (x, x + 3 * y, rhoSource (x + 3 * y) x z)

theorem rhoPiSource_injective : Function.Injective rhoPiSource := by
  rintro ⟨y, x, z⟩ ⟨y', x', z'⟩ same
  have three_cancels : ∀ a b : Fin 5, 3 * a = 3 * b → a = b := by decide
  obtain ⟨rfl, lane, bit⟩ : x = x' ∧ x + 3 * y = x' + 3 * y' ∧
      rhoSource (x + 3 * y) x z = rhoSource (x' + 3 * y') x' z' := by
    simpa only [rhoPiSource, Prod.mk.injEq] using same
  obtain rfl : y = y' := three_cancels y y' (add_left_cancel lane)
  obtain rfl : z = z' := sub_left_injective bit
  rfl

/-- The position of the bit that RhoPi moves to a position. -/
def rhoPiMove (p : Fin 1600) : Fin 1600 := coordinatesEquiv (rhoPiSource (coordinatesEquiv.symm p))

theorem rhoPiMove_bijective : Function.Bijective rhoPiMove :=
  coordinatesEquiv.bijective.comp
    ((Finite.injective_iff_bijective.mp rhoPiSource_injective).comp coordinatesEquiv.symm.bijective)

theorem getLsbD_rhoPi_eq_move (A : StateReg) (p : Fin 1600) :
    (rhoPi A).getLsbD p = A.getLsbD (rhoPiMove p) := by
  obtain ⟨⟨y, x, z⟩, rfl⟩ := coordinatesEquiv.surjective p
  rw [rhoPiMove, Equiv.symm_apply_apply, rhoPiSource, val_coordinatesEquiv, val_coordinatesEquiv]
  exact bitAt_rhoPi A x y z

/-- Settles O27: the positions move as the coordinates do. -/
theorem rhopiPermutesPositions : Obligations.RhopiPermutesPositions :=
  ⟨rhoPiMove, rhoPiMove_bijective, getLsbD_rhoPi_eq_move⟩

end Sys2Proof.Machine

/-! # Chi (spec/43_chi.md)

The step is proved once for a bit (R105), from the lane form (R107) that the model computes with. -/

namespace Sys2Proof.Machine

theorem bitAt_chi (A : StateReg) (x y : Fin 5) (z : Fin 64) :
    bitAt (chi A) x y z =
      (bitAt A x y z ^^ (!bitAt A (x + 1) y z && bitAt A (x + 2) y z)) := by
  rw [chi, bitAt_ofLanes _ x y z z.isLt]
  simp only [BitVec.getLsbD_xor, BitVec.getLsbD_and, BitVec.getLsbD_not, getLsbD_lane, z.isLt,
    decide_true, Bool.true_and]

theorem decode_chi : decode ⟨0x0022, []⟩ = .command .chi := by decide

/-- Settles O28: the command writes `chi S` into `S`, and the claim is the bit form of `chi`. -/
theorem chiMixesRows : Obligations.ChiMixesRows :=
  ⟨decode_chi, fun s => ⟨_, transforms_chi s, endsOk_succeed s _ [], bitAt_chi s.S⟩⟩

end Sys2Proof.Machine

/-! # Iota (spec/44_iota.md)

Iota xors one constant into the register, so a bit of the result is a bit of `S` xor a bit of `RC[ir]`
inside lane (0,0), and a bit of `S` outside (R112). The table of R110 is the list of `RC` by round index. -/

namespace Sys2Proof

/-! ### The header of IOTA (R62, R63) -/

/-- Encoding does not hide an immediate outside its range: the frame stops at step 3 of R71. -/
theorem decode_encode_of_not_wf (i : Instr) (illegal : i.wf = false) :
    decode (encode i) = .illegal .immediateOutOfRange := by
  obtain ⟨rsv, imm, op⟩ := encode_fields i
  have known : opcodeOf (hdrOp (encode i).hdr) = some i.opcode := op ▸ opcodeOf_value i.opcode
  exact decode_of_imm_illegal rsv known (imm ▸ i.immLegal_imm.trans illegal)

theorem encode_iota (ir : BitVec 5) :
    encode (.iota ir) = ⟨BitVec.ofNat 16 (0x0023 + 256 * ir.toNat), []⟩ := by
  revert ir
  decide

theorem decode_iota (ir : BitVec 5) :
    decode ⟨BitVec.ofNat 16 (0x0023 + 256 * ir.toNat), []⟩ =
      if ir.toNat ≤ 23 then .command (.iota ir) else .illegal .immediateOutOfRange := by
  rw [← encode_iota]
  split
  next legal => exact decodeOfEncode _ (decide_eq_true legal)
  next illegal => exact decode_encode_of_not_wf _ (decide_eq_false illegal)

end Sys2Proof

namespace Sys2Proof.Machine

/-! ### The step by bits (R111, R112) -/

theorem bitAt_iota (A : StateReg) (ir : Fin 24) (x y : Fin 5) (z : Fin 64) :
    bitAt (iota A ir) x y z = (bitAt A x y z ^^ (rc ir).getLsbD (pos x y z)) := by
  rw [bitAt, iota, BitVec.getLsbD_xor, BitVec.getLsbD_setWidth,
    decide_eq_true (pos_lt x y z z.isLt), Bool.true_and, bitAt]

theorem rcBit_eq_decide (ir : Fin 24) (z : Nat) :
    rcBit ir z = decide ((rc ir).toNat / 2 ^ z % 2 = 1) :=
  Nat.testBit_eq_decide_div_mod_eq

/-- The positions of lane (0,0) are the bit numbers of the constant. -/
theorem bitAt_iota_origin (A : StateReg) (ir : Fin 24) (z : Fin 64) :
    bitAt (iota A ir) 0 0 z = (bitAt A 0 0 z ^^ rcBit ir z) := by
  have origin : pos 0 0 z = z.val := Nat.zero_add _
  rw [bitAt_iota, origin, rcBit]

/-- The positions of every other lane are past the constant's 64 bits. -/
theorem bitAt_iota_of_ne_origin (A : StateReg) (ir : Fin 24) (x y : Fin 5) (z : Fin 64)
    (h : (x, y) ≠ (0, 0)) : bitAt (iota A ir) x y z = bitAt A x y z := by
  have past : 64 ≤ pos x y z := by
    simp only [ne_eq, Prod.mk.injEq, Fin.ext_iff, Fin.val_zero] at h
    rw [pos]
    omega
  rw [bitAt_iota, BitVec.getLsbD_of_ge _ _ past, Bool.xor_false]

/-! ### The command (R113) -/

theorem exec_iota_illegal (s : State) (ir : BitVec 5) (h : 23 < ir.toNat) :
    exec (.iota ir) s = .next (s.raise .illegalCommand) := by
  simp only [exec, execIota, roundIndex_of_gt ir h]

/-- The rows `(ir, RC[ir])` of the table of R110, as numbers. -/
def roundConstantTable : List (Nat × Nat) :=
  (List.finRange 24).map fun ir => (ir.val, (rc ir).toNat)

/-- A row of the table names its round index and its constant. -/
theorem exists_rc_of_mem_table {n k : Nat} (h : (n, k) ∈ roundConstantTable) :
    ∃ inRange : n < 24, (rc ⟨n, inRange⟩).toNat = k := by
  obtain ⟨ir, -, row⟩ := List.mem_map.mp h
  obtain ⟨rfl, rfl⟩ := Prod.mk.inj row
  exact ⟨ir.isLt, rfl⟩

/-- Settles O30: the command writes `iota S` into `S`, the table is that of `rc`, and the claim is the
bit form of `iota` inside lane (0,0) and outside. -/
theorem iotaInjectsConstant : Obligations.IotaInjectsConstant := by
  unfold Obligations.IotaInjectsConstant
  intro table
  have rows : table = roundConstantTable := rfl
  refine ⟨decode_iota, rfl, fun s ir k row => ?_, fun s ir illegal => ?_⟩
  · obtain ⟨inRange, rfl⟩ := exists_rc_of_mem_table (rows ▸ row)
    refine ⟨_, transforms_iota ir (Nat.le_of_lt_succ inRange) s, endsOk_succeed s _ [], fun z => ?_, ?_⟩
    · rw [← rcBit_eq_decide]
      exact bitAt_iota_origin s.S _ z
    · exact bitAt_iota_of_ne_origin s.S _
  · exact ⟨_, exec_iota_illegal s ir illegal, endsInError_raise s .illegalCommand⟩

/-! ### Repetition, and equal constants (R114) -/

/-- R114 (a): the constant cancels itself. -/
theorem iota_iota (A : StateReg) (ir : Fin 24) : iota (iota A ir) ir = A := by
  rw [iota, iota, BitVec.xor_assoc, BitVec.xor_self, BitVec.xor_zero]

/-- R114 (c): IOTA depends on the round index through the constant alone. -/
theorem exec_iota_eq_of_rc_eq {i j : BitVec 5} (hi : i.toNat ≤ 23) (hj : j.toNat ≤ 23)
    (same : rc ⟨i.toNat, by omega⟩ = rc ⟨j.toNat, by omega⟩) (s : State) :
    exec (.iota i) s = exec (.iota j) s := by
  rw [exec_iota_legal s i hi, exec_iota_legal s j hj, iota, iota, same]

/-- Settles O31: iota is its own inverse, and RC[6] = RC[20], RC[5] = RC[22]. -/
theorem iotaTwiceRestores : Obligations.IotaTwiceRestores := by
  refine ⟨fun s ir legal => ?_, ?_, ?_⟩
  · exact ⟨_, _, transforms_iota ir legal s, transforms_iota ir legal _, iota_iota s.S _⟩
  · exact exec_iota_eq_of_rc_eq (by decide) (by decide) (by decide)
  · exact exec_iota_eq_of_rc_eq (by decide) (by decide) (by decide)

end Sys2Proof.Machine

/-! # Round pipeline (spec/45_round_pipeline.md): ROUND and the sequencer

ROUND is the four step commands in a row (R120); the sequencer applies one stage in a finer step, and
always the one that is due (R124); run from its start to the end, it leaves the state of the one-step
command (R125). -/

namespace Sys2Proof

/-! ### The header of ROUND (R62, R63) -/

/-- Encoding and decoding again tests the immediate's range alone (R63, R71). -/
theorem decode_encode (i : Instr) :
    decode (encode i) = if i.wf = true then .command i else .illegal .immediateOutOfRange := by
  split
  next legal => exact decodeOfEncode i legal
  next illegal => exact decode_encode_of_not_wf i (Bool.eq_false_of_not_eq_true illegal)

theorem encode_round (ir : BitVec 5) :
    encode (.round ir) = ⟨BitVec.ofNat 16 (0x0028 + 256 * ir.toNat), []⟩ := by
  revert ir
  decide

theorem decode_round (ir : BitVec 5) :
    decode ⟨BitVec.ofNat 16 (0x0028 + 256 * ir.toNat), []⟩ =
      if ir.toNat ≤ 23 then .command (.round ir) else .illegal .immediateOutOfRange := by
  rw [← encode_round, decode_encode]
  simp only [Instr.wf, decide_eq_true_eq]

end Sys2Proof

namespace Sys2Proof.Machine

/-! ### The command (R120, R122) -/

theorem exec_round_illegal (s : State) (ir : BitVec 5) (h : 23 < ir.toNat) :
    exec (.round ir) s = .next (s.raise .illegalCommand) := by
  simp only [exec, execRound, roundIndex_of_gt ir h]

/-- Settles O32: the four commands compose `rnd` in `S`, and the status after a success does not
change in a further success. -/
theorem roundIsFourSteps : Obligations.RoundIsFourSteps := by
  refine ⟨decode_round, fun s ir legal => ?_, fun s ir illegal => ?_⟩
  · refine ⟨_, _, _, _, _, transforms_round ir legal s, endsOk_succeed s _ [], transforms_theta s,
      transforms_rhopi _, transforms_chi _, transforms_iota ir legal _, rfl, ?_⟩
    simp only [State.succeed_status, State.setS_status, statusOk_statusOk]
  · exact ⟨_, exec_round_illegal s ir illegal, endsInError_raise s .illegalCommand⟩

/-! ### One finer step (R121, R124) -/

/-- What a command does after its last round leaves `S`, the stage and the round index alone. -/
def KeepsRound (finished : State → State) : Prop :=
  ∀ u, (finished u).S = u.S ∧ (finished u).seq.stg = u.seq.stg ∧ (finished u).seq.rnd = u.seq.rnd

/-- Inside a permutation, of ROUND and PERM or of SPONGE and HASH, a finer step is a stage step. -/
theorem advance_inside_permutation {s : State} {last : Fin 24}
    (busy : s.seq.activity = some (.rounds last) ∨ s.seq.activity = some (.absorbRounds last)) :
    ∃ finished, KeepsRound finished ∧ advance s = .next (stageStep last finished s) := by
  obtain busy | busy := busy
  · exact ⟨toReply, fun _ => ⟨rfl, rfl, rfl⟩, advance_of_activity s _ busy⟩
  · exact ⟨nextBlock, fun _ => ⟨rfl, rfl, rfl⟩, advance_of_activity s _ busy⟩

/-- The IOTA stage ends the round: iota of the round index on `S`, THETA due, and the round index moved
on, or back to 0 after the last round. -/
theorem stageStep_endsRound {last : Fin 24} {finished : State → State} (keeps : KeepsRound finished)
    {s : State} (stg : s.seq.stg = .iota) (inRange : s.seq.rnd ≤ last) :
    (stageStep last finished s).seq.stg = .theta ∧
    (stageStep last finished s).S = iota s.S s.seq.rnd ∧
    (stageStep last finished s).seq.rnd.val =
      if s.seq.rnd = last then 0 else s.seq.rnd.val + 1 := by
  rw [stageStep_iota last finished s stg]
  by_cases done : s.seq.rnd = last
  · obtain ⟨S, stage, round⟩ :=
      keeps ((s.setS (iota s.S s.seq.rnd)).setSeq { s.seq with stg := .theta, rnd := 0 })
    rw [if_pos done, if_pos done]
    exact ⟨stage, S, congrArg Fin.val round⟩
  · rw [if_neg done, if_neg done]
    have notTop := (lt_of_le_of_ne inRange done).trans_le (Fin.le_last last)
    exact ⟨rfl, rfl, Fin.val_add_one_of_lt notTop⟩

/-- Before its IOTA stage a round keeps its index, and the command its activity. -/
theorem stageStep_insideRound (last : Fin 24) (finished : State → State) {s : State}
    (notIota : s.seq.stg ≠ .iota) :
    (stageStep last finished s).seq.rnd = s.seq.rnd ∧
    (stageStep last finished s).seq.activity = s.seq.activity := by
  cases stg : s.seq.stg with
  | theta => rw [stageStep_theta last finished s stg]; exact ⟨rfl, rfl⟩
  | rhopi => rw [stageStep_rhopi last finished s stg]; exact ⟨rfl, rfl⟩
  | chi => rw [stageStep_chi last finished s stg]; exact ⟨rfl, rfl⟩
  | iota => exact absurd stg notIota

/-- Settles O52: the finer step is a stage step, whose answer is known in each stage. -/
theorem stagesFollowFixedOrder : Obligations.StagesFollowFixedOrder := by
  intro s t last busy inRange h
  obtain ⟨finished, keeps, stage⟩ := advance_inside_permutation busy
  cases h.symm.trans stage
  refine ⟨fun stg => ?_, fun stg => ?_, fun stg => ?_, fun stg => stageStep_endsRound keeps stg inRange,
    stageStep_insideRound last finished⟩
  · rw [stageStep_theta last finished s stg]; exact ⟨rfl, rfl⟩
  · rw [stageStep_rhopi last finished s stg]; exact ⟨rfl, rfl⟩
  · rw [stageStep_chi last finished s stg]; exact ⟨rfl, rfl⟩

/-! ### A command from its frame to its response (R125) -/

/-- A command whose effect is that of rounds takes its beginning, four finer steps for each round and
its response, and leaves the state of the one-step command. -/
theorem advanceN_accept_of_rounds {i : Instr} {first last : Fin 24} {more : Nat} {s : State}
    (wf : i.wf = true) (toLast : first.val + more = last.val)
    (start : beginInstr i s = .next (startRounds first last s))
    (effect : exec i s = .next ((s.setS (runRounds s.S first more)).succeed [])) :
    ∃ t, exec i s = .next t ∧ t.seq = Seq.idle ∧
      advanceN (1 + (more + 1) * 4 + 1) (accept (encode i) s) = .next t := by
  have begins : advanceN 1 (accept (encode i) s) = .next (startRounds first last s) := by
    rw [advanceN_one, advance_accept, beginFrame_of_command (decodeOfEncode i wf), start]
  refine ⟨_, effect, rfl, ?_⟩
  rw [Nat.add_assoc, advanceN_add _ _ _ _ begins, advanceN_startRounds first last more toLast s]

/-- Settles O48: ROUND ir is the round `ir` and no more after it. -/
theorem sequencerRunsRound : Obligations.SequencerRunsRound := by
  intro s ir legal
  have start : beginInstr (.round ir) s =
      .next (startRounds ⟨ir.toNat, by omega⟩ ⟨ir.toNat, by omega⟩ s) := by
    simp only [beginInstr, roundIndex_of_le ir legal]
  exact advanceN_accept_of_rounds (more := 0) (decide_eq_true legal) rfl start
    (exec_round_legal s ir legal)

/-- Settles O49: PERM is round 0 and the 23 rounds after it. -/
theorem sequencerRunsPerm : Obligations.SequencerRunsPerm := by
  intro s
  have effect : exec .perm s = .next ((s.setS (runRounds s.S 0 23)).succeed []) := by
    rw [runRounds_all, transforms_perm s]
  exact advanceN_accept_of_rounds (first := 0) (last := 23) (more := 23) rfl rfl rfl effect

/-- Settles O51: the finer steps of a frame end where its one-step effect does, and that effect leaves
the hidden state idle. -/
theorem finerStepsAgreeWithOneStep : Obligations.FinerStepsAgreeWithOneStep := by
  intro s f
  obtain ⟨t, answer, idle, -⟩ := runFrame_outside f s
  obtain ⟨n, finer⟩ := advanceN_accept f s
  exact ⟨n, t, answer, idle, finer.trans answer⟩

end Sys2Proof.Machine

/-! # Permutation (spec/46_permutation.md): chi and PERM, PERMB, and what a result depends on

Chi is injective since every bit of a row can be computed from the row that chi leaves. PERM is the
chain of the 24 ROUND commands, and PERMB is LDS, PERM and STS by the rule of each. A result depends on
`S`, the operands and, for SPONGE and HASH, the configuration, since these fix the branch of the command
and the values it ends with. -/

namespace Sys2Proof.Machine

/-! ### Chi has an inverse on rows (R107, R134) -/

/-- The row of `y` and `z`: its five bits by `x` (R105). -/
def row (A : StateReg) (y : Fin 5) (z : Fin 64) (x : Fin 5) : Bool := bitAt A x y z

/-- Chi on one row (R105). -/
def chiRow (a : Fin 5 → Bool) (x : Fin 5) : Bool := a x ^^ (!a (x + 1) && a (x + 2))

/-- The inverse of chi on one row. -/
def unchiRow (b : Fin 5 → Bool) (x : Fin 5) : Bool :=
  b x ^^ (!b (x + 1) && (b (x + 2) ^^ (!b (x + 3) && b (x + 4))))

theorem row_chi (A : StateReg) (y : Fin 5) (z : Fin 64) : row (chi A) y z = chiRow (row A y z) :=
  funext fun x => bitAt_chi A x y z

/-- The inverse in terms of five bits in a circle, of which the first is computed back. -/
theorem unchi_bit : ∀ a b c d e : Bool,
    ((a ^^ (!b && c)) ^^ (!(b ^^ (!c && d)) &&
      ((c ^^ (!d && e)) ^^ (!(d ^^ (!e && a)) && (e ^^ (!a && b)))))) = a := by decide

theorem unchiRow_chiRow : Function.LeftInverse unchiRow chiRow := by
  intro a
  funext x
  have circle : x + 1 + 1 = x + 2 ∧ x + 1 + 2 = x + 3 ∧ x + 2 + 1 = x + 3 ∧ x + 2 + 2 = x + 4 ∧
      x + 3 + 1 = x + 4 ∧ x + 3 + 2 = x ∧ x + 4 + 1 = x ∧ x + 4 + 2 = x + 1 := by
    revert x
    decide
  simp only [unchiRow, chiRow, circle]
  exact unchi_bit (a x) (a (x + 1)) (a (x + 2)) (a (x + 3)) (a (x + 4))

/-- Settles O29: equal results have equal rows, and chi on a row has an inverse. -/
theorem chiIsInjective : Obligations.ChiIsInjective := by
  intro A B same
  have sameRow : ∀ y z, row A y z = row B y z := fun y z =>
    unchiRow_chiRow.injective (by rw [← row_chi, ← row_chi, same])
  exact ext_bitAt fun x y z hz => congrFun (sameRow y ⟨z, hz⟩) x

/-! ### PERM as 24 commands (R130, R132) -/

theorem decode_perm : decode ⟨0x0030, []⟩ = .command .perm := by decide

/-- The state after ROUND 0, ..., ROUND `n - 1`. -/
def afterRounds (s : State) : Nat → State
  | 0 => s
  | n + 1 => ((afterRounds s n).setS (rnd (afterRounds s n).S (Fin.ofNat 24 n))).succeed []

theorem exec_round_afterRounds (s : State) (n : Nat) (h : n < 24) :
    exec (.round (BitVec.ofNat 5 n)) (afterRounds s n) = .next (afterRounds s (n + 1)) := by
  have index : (⟨n, h⟩ : Fin 24) = Fin.ofNat 24 n := Fin.ext (Nat.mod_eq_of_lt h).symm
  rw [afterRounds, ← index]
  exact transforms_round_ofNat ⟨n, h⟩ _

/-- Every round succeeds, and a success after a success leaves STATUS as it is. -/
theorem afterRounds_succ_status (s : State) (n : Nat) :
    (afterRounds s (n + 1)).status = statusOk s.status := by
  induction n with
  | zero => rfl
  | succ n ih =>
    rw [afterRounds, State.succeed_status, State.setS_status, ih, statusOk_statusOk]

theorem afterRounds_S (s : State) (n : Nat) :
    (afterRounds s n).S = (List.range n).foldl (fun A k => rnd A (Fin.ofNat 24 k)) s.S := by
  induction n with
  | zero => rfl
  | succ n ih =>
    rw [afterRounds, State.succeed_S, State.setS_S, ih, List.range_succ, List.foldl_append]
    rfl

theorem afterRounds_all_S (s : State) : (afterRounds s 24).S = keccakP s.S := by
  have indices : List.finRange 24 = (List.range 24).map (Fin.ofNat 24) := by decide
  rw [afterRounds_S, keccakP, indices, List.foldl_map]

/-- Settles O33: the chain of rounds folds `rnd` over `S` as `keccakP` does. -/
theorem permIsTwentyFourRounds : Obligations.PermIsTwentyFourRounds := by
  refine ⟨decode_perm, fun s => ?_⟩
  exact ⟨_, afterRounds s, transforms_perm s, endsOk_succeed s _ [], rfl, exec_round_afterRounds s,
    (afterRounds_all_S s).symm, (afterRounds_succ_status s 23).symm⟩

/-! ### PERMB (R70, R133) -/

/-- A run goes on after a success, whatever its payload (R70). -/
theorem runInstrs_of_succeed {i : Instr} {s u : State} {payload : Bits}
    (h : exec i s = .next (u.succeed payload)) (is : List Instr) :
    runInstrs (i :: is) s = runInstrs is (u.succeed payload) := by
  simp only [runInstrs, h, lastResponseCode_succeed, if_true]

theorem lastResponseCode_raise (s : State) (e : Error) : lastResponseCode (s.raise e) = e.code := by
  simp [lastResponseCode]

/-- A run stops at an error (R70). -/
theorem runInstrs_of_raise {i : Instr} {s u : State} {e : Error}
    (h : exec i s = .next (u.raise e)) (is : List Instr) :
    runInstrs (i :: is) s = .next (u.raise e) := by
  simp only [runInstrs, h, lastResponseCode_raise, e.code_ne_zero, if_false]

/-- The permutation of a sequence, as PERMB leaves it in the register (R133). -/
theorem runInstrs_permb (s : State) (bs : Bits) (whole : bs.length = 1600) :
    runInstrs (permb bs) s = .next
      (((((s.setS (ofBits 1600 bs)).succeed []).setS (keccakP (ofBits 1600 bs))).succeed []).succeed
        (toBits (keccakP (ofBits 1600 bs)))) := by
  rw [permb, runInstrs_of_succeed (exec_lds_whole s bs whole), transforms_perm.runInstrs_cons,
    runInstrs_of_succeed (exec_sts _)]
  rfl

/-- Settles O35: LDS, PERM and STS in a row, or the error of LDS, at which the run stops. -/
theorem permbIsTheFunction : Obligations.PermbIsTheFunction := by
  refine ⟨fun s bs whole => ?_, fun s bs wrong => ?_⟩
  · refine ⟨_, toBits (keccakP (ofBits 1600 bs)), runInstrs_permb s bs whole, ?_, length_toBits _,
      _, _, exec_lds_whole s bs whole, transforms_perm _, getElem?_toBits _, rfl⟩
    simp only [State.succeed_responses, State.setS_responses, List.append_assoc, List.cons_append,
      List.nil_append]
  · exact ⟨_, runInstrs_of_raise (exec_lds_wrong_length s bs wrong) [.perm, .sts],
      endsInError_raise s .invalidInputLength⟩

/-! ### What a result depends on (R49, R131, R147) -/

/-- The two states differ in nothing that the command reads, RDSR apart: they agree in `S` and, for
SPONGE and HASH, in the configuration. -/
def LookAlike (i : Instr) (s u : State) : Prop :=
  s.S = u.S ∧ ∀ N, i = .sponge N ∨ i = .hash N → s.cfg = u.cfg

/-- The command leaves the same `S` and sends the same response from every state that looks like `s`. -/
def ResultFixedBy (i : Instr) (s : State) : Prop :=
  ∃ v r, ∀ u, LookAlike i s u →
    ∃ t, exec i u = .next t ∧ t.S = v ∧ t.responses = u.responses ++ [r]

theorem resultFixedBy_of_succeed {i : Instr} {s : State} {v : StateReg} {payload : Bits}
    (h : ∀ u, LookAlike i s u → exec i u = .next ((u.setS v).succeed payload)) :
    ResultFixedBy i s :=
  ⟨v, ⟨0, payload⟩, fun u alike => ⟨_, h u alike, rfl, rfl⟩⟩

theorem resultFixedBy_of_raise {i : Instr} {s : State} {e : Error}
    (h : ∀ u, LookAlike i s u → exec i u = .next (u.raise e)) : ResultFixedBy i s :=
  ⟨s.S, ⟨e.code, []⟩, fun u alike => ⟨_, h u alike, alike.1.symm, rfl⟩⟩

theorem Transforms.resultFixedBy {i : Instr} {f : StateReg → StateReg} (h : Transforms i f)
    (s : State) : ResultFixedBy i s :=
  resultFixedBy_of_succeed (v := f s.S) (payload := []) fun u ⟨S, _⟩ => by rw [h u, S]

/-- SPONGE and HASH past their checks: the digest and the final state are functions of the
configuration and of what is absorbed (R150). -/
theorem resultFixedBy_of_finishSponge {i : Instr} {s : State} (n : Bits)
    (h : ∀ u, LookAlike i s u → s.cfg = u.cfg ∧ exec i u = .next (finishSponge n u)) :
    ResultFixedBy i s :=
  resultFixedBy_of_succeed fun u alike => by
    obtain ⟨cfg, answer⟩ := h u alike
    rw [answer, finishSponge, ← cfg]

theorem init_resultFixedBy (s : State) : ResultFixedBy .init s :=
  ⟨0, ⟨0, []⟩, fun _ _ => ⟨_, rfl, rfl, rfl⟩⟩

theorem lds_resultFixedBy (bs : Bits) (s : State) : ResultFixedBy (.lds bs) s := by
  by_cases whole : bs.length = 1600
  · exact resultFixedBy_of_succeed fun u _ => exec_lds_whole u bs whole
  · exact resultFixedBy_of_raise fun u _ => exec_lds_wrong_length u bs whole

theorem sts_resultFixedBy (s : State) : ResultFixedBy .sts s :=
  ⟨s.S, ⟨0, toBits s.S⟩, fun u ⟨S, _⟩ => ⟨_, exec_sts u, S.symm, by rw [S]; rfl⟩⟩

theorem iota_resultFixedBy (ir : BitVec 5) (s : State) : ResultFixedBy (.iota ir) s := by
  by_cases legal : ir.toNat ≤ 23
  · exact (transforms_iota ir legal).resultFixedBy s
  · exact resultFixedBy_of_raise fun u _ => exec_iota_illegal u ir (by omega)

theorem round_resultFixedBy (ir : BitVec 5) (s : State) : ResultFixedBy (.round ir) s := by
  by_cases legal : ir.toNat ≤ 23
  · exact (transforms_round ir legal).resultFixedBy s
  · exact resultFixedBy_of_raise fun u _ => exec_round_illegal u ir (by omega)

theorem sponge_resultFixedBy (n : Bits) (s : State) : ResultFixedBy (.sponge n) s := by
  have sameCfg : ∀ u, LookAlike (.sponge n) s u → s.cfg = u.cfg := fun u ⟨_, cfg⟩ => cfg n (.inl rfl)
  cases valid : cfgValid s.cfg with
  | false =>
    exact resultFixedBy_of_raise fun u alike => by
      rw [exec, execSponge, ← sameCfg u alike, if_pos valid]
  | true =>
    exact resultFixedBy_of_finishSponge n fun u alike => ⟨sameCfg u alike, by
      rw [exec, execSponge, ← sameCfg u alike, if_neg (by simp [valid])]⟩

theorem hash_resultFixedBy (m : Bits) (s : State) : ResultFixedBy (.hash m) s := by
  have sameCfg : ∀ u, LookAlike (.hash m) s u → s.cfg = u.cfg := fun u ⟨_, cfg⟩ => cfg m (.inr rfl)
  cases valid : cfgValid s.cfg with
  | false =>
    exact resultFixedBy_of_raise fun u alike => by
      rw [exec, execHash, ← sameCfg u alike, if_pos valid]
  | true =>
    by_cases ragged : m.length % 8 ≠ 0
    · exact resultFixedBy_of_raise fun u alike => by
        rw [exec, execHash, ← sameCfg u alike, if_neg (by simp [valid]), if_pos ragged]
    · exact resultFixedBy_of_finishSponge (withSuffix m) fun u alike => ⟨sameCfg u alike, by
        rw [exec, execHash, ← sameCfg u alike, if_neg (by simp [valid]), if_neg ragged]⟩

theorem exec_resultFixedBy (i : Instr) (s : State) (notRdsr : ∀ n, i ≠ .rdsr n) :
    ResultFixedBy i s := by
  cases i with
  | init => exact init_resultFixedBy s
  | rdsr n => exact absurd rfl (notRdsr n)
  | lds bs => exact lds_resultFixedBy bs s
  | sts => exact sts_resultFixedBy s
  | theta => exact transforms_theta.resultFixedBy s
  | rhopi => exact transforms_rhopi.resultFixedBy s
  | chi => exact transforms_chi.resultFixedBy s
  | iota ir => exact iota_resultFixedBy ir s
  | round ir => exact round_resultFixedBy ir s
  | perm => exact transforms_perm.resultFixedBy s
  | sponge n => exact sponge_resultFixedBy n s
  | hash m => exact hash_resultFixedBy m s

/-- Settles O46: the second state looks like the first, and so does the first. -/
theorem resultsIgnoreHistory : Obligations.ResultsIgnoreHistory := by
  intro i s s' notRdsr S cfg
  obtain ⟨v, r, result⟩ := exec_resultFixedBy i s notRdsr
  obtain ⟨t, answer, newS, sent⟩ := result s ⟨rfl, fun _ _ => rfl⟩
  obtain ⟨t', answer', newS', sent'⟩ := result s' ⟨S, cfg⟩
  exact ⟨t, t', r, answer, answer', newS.trans newS'.symm, sent, sent'⟩

end Sys2Proof.Machine

/-! # Sponge engine (spec/47_sponge.md)

Padding first: `j` is the one number below the rate that fills the last block (R141). A padded message
is then known bit by bit and cut into blocks, and the running states of the sponge are the folds over the
first blocks. In the shipped configuration the same padding is read as bytes (R156). -/

namespace Sys2Proof.Machine

/-! ### The padding law (R141, R142) -/

theorem length_pad (r m : Nat) : (pad r m).length = padZeros r m + 2 := by
  simp [pad]

theorem padZeros_lt {r : Nat} (m : Nat) (ratePos : 0 < r) : padZeros r m < r := by
  have below : (-(m : Int) - 2) % r < r := Int.emod_lt_of_pos _ (by omega)
  rw [padZeros]
  omega

theorem padZeros_fills {r : Nat} (m : Nat) (ratePos : 0 < r) : r ∣ m + 2 + padZeros r m := by
  have whole := Nat.dvd_of_mod_eq_zero (length_padded_mod r (List.replicate m false) ratePos)
  rwa [length_padded, List.length_replicate, Nat.add_right_comm] at whole

/-- The number of zeros is the only one below the rate that fills the last block. -/
theorem padZeros_eq_of_dvd {r m j : Nat} (below : j < r) (fills : r ∣ m + 2 + j) :
    padZeros r m = j := by
  have ratePos : 0 < r := by omega
  have same : padZeros r m ≡ j [MOD r] := Nat.ModEq.add_left_cancel' (m + 2)
    ((Nat.modEq_zero_iff_dvd.mpr (padZeros_fills m ratePos)).trans
      (Nat.modEq_zero_iff_dvd.mpr fills).symm)
  exact same.eq_of_lt_of_lt (padZeros_lt m ratePos) below

/-- What is missing to a whole number of blocks depends on the rest of the length alone. -/
theorem padZeros_eq_of_mod {r m j k : Nat} (below : j < r) (rest : m % r = k)
    (fills : r ∣ k + 2 + j) : padZeros r m = j := by
  have split : m + 2 + j = r * (m / r) + (k + 2 + j) := by
    have := Nat.div_add_mod m r
    omega
  exact padZeros_eq_of_dvd below (split ▸ (Nat.dvd_mul_right r _).add fills)

theorem pad_of_padZeros_eq_zero {r m : Nat} (h : padZeros r m = 0) : pad r m = [true, true] := by
  rw [pad, h]; rfl

/-- Settles O36: `padZeros` is below the rate and fills the last block, which determines it. -/
theorem paddingLaw : Obligations.PaddingLaw := by
  refine ⟨fun r m pos => ?_, fun r m pos => ?_, fun r m two rest => ?_, fun r m two rest => ?_,
    fun r m two rest => ?_, fun m => ?_⟩
  · exact ⟨_, rfl, padZeros_lt m pos, Nat.mod_eq_zero_of_dvd (padZeros_fills m pos)⟩
  · have below := padZeros_lt m pos
    rw [length_pad, Nat.add_comm (padZeros r m), ← Nat.add_assoc]
    exact ⟨Nat.mod_eq_zero_of_dvd (padZeros_fills m pos), by omega, by omega⟩
  · have zeros : padZeros r m = r - 2 :=
      padZeros_eq_of_mod (by omega) rest ⟨1, by omega⟩
    rw [length_pad, zeros]
    omega
  · exact pad_of_padZeros_eq_zero (padZeros_eq_of_mod (by omega) rest ⟨1, by omega⟩)
  · have zeros : padZeros r m = r - 1 :=
      padZeros_eq_of_mod (by omega) rest ⟨2, by omega⟩
    rw [length_pad, zeros]
    omega
  · exact pad_of_padZeros_eq_zero (padZeros_eq_of_dvd Nat.one_pos (one_dvd _))

/-! ### The padded message, its length and its bits (R143) -/

/-- The padded message has the only length, of a whole number of blocks, with room for the two ones
and less than a block of zeros. -/
theorem length_padded_eq_mul {r n : Nat} {N : Bits} (room : N.length + 2 ≤ n * r)
    (tight : n * r < N.length + 2 + r) : (padded r N).length = n * r := by
  have zeros : padZeros r N.length = n * r - (N.length + 2) :=
    padZeros_eq_of_dvd (by omega) ⟨n, by rw [Nat.add_sub_cancel' room, Nat.mul_comm]⟩
  rw [length_padded, zeros]
  omega

theorem block_count {r n : Nat} {N : Bits} (ratePos : 0 < r) (room : N.length + 2 ≤ n * r)
    (tight : n * r < N.length + 2 + r) : (padded r N).length / r = n := by
  rw [length_padded_eq_mul room tight, Nat.mul_div_cancel n ratePos]

/-- Some number of blocks has this room (R142). -/
theorem exists_block_count {r : Nat} (N : Bits) (ratePos : 0 < r) :
    ∃ n, N.length + 2 ≤ n * r ∧ n * r < N.length + 2 + r := by
  obtain ⟨n, whole⟩ := padZeros_fills N.length ratePos
  have below := padZeros_lt N.length ratePos
  exact ⟨n, by rw [Nat.mul_comm, ← whole]; omega, by rw [Nat.mul_comm, ← whole]; omega⟩

theorem getElem?_pad (r m : Nat) {i : Nat} (inside : i < (pad r m).length) :
    (pad r m)[i]? = some (decide (i = 0 ∨ i + 1 = (pad r m).length)) := by
  rw [length_pad] at inside ⊢
  rw [pad, List.append_assoc, List.singleton_append]
  cases i with
  | zero => simp
  | succ i =>
    rw [List.getElem?_cons_succ, List.getElem?_append, List.length_replicate]
    by_cases zero : i < padZeros r m
    · simp [zero, zero.ne]
    · simp [show i = padZeros r m by omega]

/-- The message, a one, zeros, and a one at the end. -/
theorem getElem?_padded (r : Nat) (N : Bits) {q : Nat} (inside : q < (padded r N).length) :
    (padded r N)[q]? = some (if h : q < N.length then N[q]
      else decide (q = N.length ∨ q + 1 = (padded r N).length)) := by
  rw [padded, List.length_append] at inside ⊢
  by_cases message : q < N.length
  · rw [dif_pos message, List.getElem?_append_left message, List.getElem?_eq_getElem message]
  · rw [dif_neg message, List.getElem?_append_right (by omega), getElem?_pad r _ (by omega)]
    exact congrArg some (decide_eq_decide.mpr (by omega))

/-! ### Absorbing (R144) -/

/-- The running state `T_i` (R144): the first `i` blocks absorbed. -/
def runningState (cfg : Config) (bs : List Bits) (i : Nat) : StateReg :=
  (bs.take i).foldl (absorbBlock cfg) 0

theorem runningState_succ (cfg : Config) {bs : List Bits} {i : Nat} {block : Bits}
    (next : bs[i]? = some block) :
    runningState cfg bs (i + 1) = absorbBlock cfg (runningState cfg bs i) block := by
  rw [runningState, List.take_add_one, next, Option.toList_some, List.foldl_append,
    List.foldl_cons, List.foldl_nil, runningState]

theorem length_blocks (r : Nat) (p : Bits) : (blocks r p).length = p.length / r := by
  rw [blocks, List.length_map, List.length_range]

theorem getElem?_blocks (r : Nat) (p : Bits) {i : Nat} (inside : i < p.length / r) :
    (blocks r p)[i]? = some ((p.drop (i * r)).take r) := by
  rw [blocks, List.getElem?_map, List.getElem?_range inside, Option.map_some]

/-- All blocks absorbed is the final running state (R146). -/
theorem runningState_all (cfg : Config) (N : Bits) {n : Nat}
    (count : (padded (rate cfg) N).length / rate cfg = n) :
    runningState cfg (blocks (rate cfg) (padded (rate cfg) N)) n = spongeState cfg N := by
  rw [runningState, List.take_of_length_le (by rw [length_blocks, count]), spongeState_eq]

/-- A block of `p` is XORed into the first `r` positions (R144). -/
theorem getLsbD_xorBlock {cfg : Config} (T : StateReg) (p : Bits) (i : Nat)
    (inside : (i + 1) * rate cfg ≤ p.length) {pos : Nat} (inRange : pos < 1600) :
    (xorBlock cfg T ((p.drop (i * rate cfg)).take (rate cfg))).getLsbD pos =
      (T.getLsbD pos ^^ (decide (pos < rate cfg) && p[i * rate cfg + pos]?.getD false)) := by
  have full : ((p.drop (i * rate cfg)).take (rate cfg)).length = rate cfg := by
    rw [List.length_take, List.length_drop]
    rw [Nat.succ_mul] at inside
    omega
  rw [xorBlock, BitVec.getLsbD_xor, getLsbD_ofBits, decide_eq_true inRange, Bool.true_and,
    List.getElem?_append, full]
  by_cases inBlock : pos < rate cfg
  · rw [if_pos inBlock, decide_eq_true inBlock, Bool.true_and, List.getElem?_take_of_lt inBlock,
      List.getElem?_drop]
  · rw [if_neg inBlock, decide_eq_false inBlock, Bool.false_and, List.getElem?_replicate]
    split <;> rfl

/-- The digest is the first `d` bits of the final running state (R145). -/
theorem getElem?_squeeze {cfg : Config} (valid : cfgValid cfg = true) (T : StateReg) {p : Nat}
    (h : p < cfg.d) : (squeeze cfg T)[p]? = some (T.getLsbD p) := by
  obtain ⟨-, fits⟩ := (cfgValid_iff cfg).mp valid
  have inRate : p < rate cfg := h.trans_le fits
  rw [squeeze, List.getElem?_take_of_lt h, List.getElem?_take_of_lt inRate,
    getElem?_toBits T p (inRate.trans_le (Nat.sub_le _ _))]

/-! ### The two commands and their headers (R62, R150, R151) -/

theorem exec_sponge_valid {s : State} (valid : cfgValid s.cfg = true) (N : Bits) :
    exec (.sponge N) s = .next (finishSponge N s) := by
  rw [exec, execSponge, if_neg (by simp [valid])]

theorem exec_sponge_invalid {s : State} (invalid : cfgValid s.cfg = false) (N : Bits) :
    exec (.sponge N) s = .next (s.raise .invalidParameter) := by
  rw [exec, execSponge, if_pos invalid]

theorem exec_hash_invalid {s : State} (invalid : cfgValid s.cfg = false) (M : Bits) :
    exec (.hash M) s = .next (s.raise .invalidParameter) := by
  rw [exec, execHash, if_pos invalid]

theorem exec_hash_bytes {s : State} (valid : cfgValid s.cfg = true) {M : Bits}
    (bytes : M.length % 8 = 0) : exec (.hash M) s = .next (finishSponge (withSuffix M) s) := by
  rw [exec, execHash, if_neg (by simp [valid]), if_neg (not_not_intro bytes)]

theorem exec_hash_ragged {s : State} (valid : cfgValid s.cfg = true) {M : Bits}
    (ragged : M.length % 8 ≠ 0) : exec (.hash M) s = .next (s.raise .encodingError) := by
  rw [exec, execHash, if_neg (by simp [valid]), if_pos ragged]

theorem endsOk_finishSponge (N : Bits) (s : State) :
    EndsOk s (finishSponge N s) (squeeze s.cfg (spongeState s.cfg N)) := endsOk_succeed s _ _

theorem cfgValid_of_bounds {cfg : Config} (c : cfg.c < 1600) (d : cfg.d ≤ 1600 - cfg.c) :
    cfgValid cfg = true := (cfgValid_iff cfg).mpr ⟨c, d⟩

theorem cfgValid_eq_false {cfg : Config} (h : 1600 ≤ cfg.c ∨ 1600 - cfg.c < cfg.d) :
    cfgValid cfg = false := by
  rw [← Bool.not_eq_true, cfgValid_iff]
  omega

theorem encode_sponge (N : Bits) : encode (.sponge N) = ⟨0x0040, N⟩ :=
  have header : mkHeader 0 0 Opcode.sponge.value = 0x0040 := by decide
  congrArg (Frame.mk · N) header

theorem encode_hash (M : Bits) : encode (.hash M) = ⟨0x0041, M⟩ :=
  have header : mkHeader 0 0 Opcode.hash.value = 0x0041 := by decide
  congrArg (Frame.mk · M) header

theorem decode_sponge (N : Bits) : decode ⟨0x0040, N⟩ = .command (.sponge N) := by
  rw [← encode_sponge, decodeOfEncode _ rfl]

theorem decode_hash (M : Bits) : decode ⟨0x0041, M⟩ = .command (.hash M) := by
  rw [← encode_hash, decodeOfEncode _ rfl]

/-- Settles O37: the running states are the folds over the first blocks, and each block is a slice of
the padded message, known bit by bit. -/
theorem spongeAbsorbsPaddedMessage : Obligations.SpongeAbsorbsPaddedMessage := by
  refine ⟨decode_sponge, fun s N c d => ?_, fun s N invalid => ?_⟩
  · have valid := cfgValid_of_bounds c d
    have ratePos := rate_pos_of_valid s.cfg valid
    obtain ⟨n, room, tight⟩ := exists_block_count N ratePos
    have length := length_padded_eq_mul room tight
    have count := block_count ratePos room tight
    refine ⟨_, n, runningState s.cfg (blocks (rate s.cfg) (padded (rate s.cfg) N)), _,
      exec_sponge_valid valid N, endsOk_finishSponge N s, room, tight, rfl, fun i hi => ?_,
      (runningState_all s.cfg N count).symm, length_squeeze valid _, fun p hp => ?_⟩
    · have block := getElem?_blocks (rate s.cfg) (padded (rate s.cfg) N) (count.symm ▸ hi)
      refine ⟨_, runningState_succ s.cfg block, fun p hp => ?_⟩
      have inside : (i + 1) * rate s.cfg ≤ (padded (rate s.cfg) N).length :=
        length ▸ Nat.mul_le_mul_right _ hi
      rw [getLsbD_xorBlock _ _ i inside hp]
      by_cases inBlock : p < rate s.cfg
      · have inPadded : i * rate s.cfg + p < (padded (rate s.cfg) N).length := by
          rw [Nat.succ_mul] at inside
          omega
        rw [getElem?_padded _ N inPadded, length]
        rfl
      · have outside : decide (p < 1600 - s.cfg.c) = false := decide_eq_false inBlock
        rw [outside, decide_eq_false inBlock, Bool.false_and, Bool.false_and]
    · rw [getElem?_squeeze valid _ hp, runningState_all s.cfg N count]
  · exact ⟨_, exec_sponge_invalid (cfgValid_eq_false invalid) N, endsInError_raise s .invalidParameter⟩

/-! ### HASH is SPONGE of the suffixed message (R149, R151) -/

/-- Settles O38: past the checks both commands are `finishSponge` of the suffixed message. -/
theorem hashIsSuffixedSponge : Obligations.HashIsSuffixedSponge := by
  refine ⟨decode_hash, fun s M c d bytes => ?_, fun s M invalid => ?_, fun s M c d ragged => ?_⟩
  · have valid := cfgValid_of_bounds c d
    exact ⟨_, _, exec_hash_bytes valid bytes, exec_sponge_valid valid _,
      endsOk_finishSponge (withSuffix M) s, length_squeeze valid _⟩
  · exact ⟨_, exec_hash_invalid (cfgValid_eq_false invalid) M, endsInError_raise s .invalidParameter⟩
  · exact ⟨_, exec_hash_ragged (cfgValid_of_bounds c d) ragged, endsInError_raise s .encodingError⟩

/-! ### The old `S` has no influence (R49, R144) -/

/-- The final running state and the response are functions of the configuration and of what is
absorbed. -/
theorem finishSponge_result {s s' : State} (cfg : s.cfg = s'.cfg) (N : Bits) :
    ∃ r, (finishSponge N s).S = (finishSponge N s').S ∧
      (finishSponge N s).responses = s.responses ++ [r] ∧
      (finishSponge N s').responses = s'.responses ++ [r] := by
  refine ⟨⟨0, squeeze s.cfg (spongeState s.cfg N)⟩, ?_, rfl, ?_⟩
  · simp only [finishSponge, State.succeed_S, State.setS_S, cfg]
  · rw [cfg]; rfl

/-- Settles O39: both states pass the same checks and absorb the same sequence, or both raise the same
error. -/
theorem hashIgnoresOldState : Obligations.HashIgnoresOldState := by
  intro s s' N cfg c d
  have valid : cfgValid s.cfg = true := cfgValid_of_bounds c d
  have valid' : cfgValid s'.cfg = true := cfg ▸ valid
  refine ⟨?_, ?_⟩
  · obtain ⟨r, S, sent, sent'⟩ := finishSponge_result cfg N
    exact ⟨_, _, r, exec_sponge_valid valid N, exec_sponge_valid valid' N, S, sent, sent'⟩
  · by_cases bytes : N.length % 8 = 0
    · obtain ⟨r, S, sent, sent'⟩ := finishSponge_result cfg (withSuffix N)
      exact ⟨_, _, r, exec_hash_bytes valid bytes, exec_hash_bytes valid' bytes, sent, sent',
        fun _ => S⟩
    · exact ⟨_, _, _, exec_hash_ragged valid bytes, exec_hash_ragged valid' bytes, rfl, rfl,
        fun whole => absurd whole bytes⟩

/-! ### SPONGE in finer steps (R155) -/

/-- Settles O50: the first finer step starts the sponge, and the blocks of the padded message are `n`. -/
theorem sequencerRunsSponge : Obligations.SequencerRunsSponge := by
  intro s N n c d room tight
  have valid := cfgValid_of_bounds c d
  have begins : advanceN 1 (accept (encode (.sponge N)) s) = .next (startSponge N s) := by
    rw [advanceN_one, advance_accept, beginFrame_of_command (decodeOfEncode (.sponge N) rfl),
      beginInstr, if_neg (by simp [valid])]
  have count : (padded (rate s.cfg) N).length / rate s.cfg = n :=
    block_count (rate_pos_of_valid s.cfg valid) room tight
  have absorbs := advanceN_startSponge N s valid
  rw [count] at absorbs
  refine ⟨_, exec_sponge_valid valid N, ?_⟩
  rw [Nat.add_assoc, advanceN_add _ _ _ _ begins]
  exact absorbs

/-! ### Bytes and bits (R45, R148) -/

theorem bytesToBits_cons (b : BitVec 8) (B : List (BitVec 8)) :
    bytesToBits (b :: B) = toBits b ++ bytesToBits B := List.flatMap_cons

theorem bytesToBits_append (A B : List (BitVec 8)) :
    bytesToBits (A ++ B) = bytesToBits A ++ bytesToBits B := List.flatMap_append

theorem length_bytesToBits (B : List (BitVec 8)) : (bytesToBits B).length = 8 * B.length := by
  induction B with
  | nil => rfl
  | cons b B ih =>
    rw [bytesToBits_cons, List.length_append, length_toBits, ih, List.length_cons]
    omega

/-- Eight bits on is one byte on. -/
theorem bytesToBits_drop (B : List (BitVec 8)) (k : Nat) :
    (bytesToBits B).drop (8 * k) = bytesToBits (B.drop k) := by
  induction k generalizing B with
  | zero => rfl
  | succ k ih =>
    cases B with
    | nil => rfl
    | cons b B =>
      rw [bytesToBits_cons, Nat.mul_succ, Nat.add_comm, ← List.drop_drop,
        List.drop_left' (length_toBits b), ih, List.drop_succ_cons]

/-- From position `8·j` on, the bits of byte `j` come first. -/
theorem bytesToBits_drop_of_getElem? {B : List (BitVec 8)} {j : Nat} {b : BitVec 8}
    (h : B[j]? = some b) :
    (bytesToBits B).drop (8 * j) = toBits b ++ bytesToBits (B.drop (j + 1)) := by
  obtain ⟨inside, rfl⟩ := List.getElem?_eq_some_iff.mp h
  rw [bytesToBits_drop, List.drop_eq_getElem_cons inside, bytesToBits_cons]

theorem getElem?_bytesToBits {B : List (BitVec 8)} {j i : Nat} {b : BitVec 8} (inByte : i < 8)
    (h : B[j]? = some b) : (bytesToBits B)[8 * j + i]? = some (b.getLsbD i) := by
  rw [← List.getElem?_drop, bytesToBits_drop_of_getElem? h,
    List.getElem?_append_left (by rwa [length_toBits]), getElem?_toBits b i inByte]

theorem bitsToBytes_bytesToBits (B : List (BitVec 8)) : bitsToBytes (bytesToBits B) = B := by
  have count : (bytesToBits B).length / 8 = B.length := by
    rw [length_bytesToBits, Nat.mul_div_cancel_left _ (by decide)]
  refine List.ext_getElem (by rw [bitsToBytes, List.length_map, List.length_range, count]) ?_
  intro k _ inside
  simp only [bitsToBytes, List.getElem_map, List.getElem_range]
  rw [bytesToBits_drop_of_getElem? (List.getElem?_eq_getElem inside),
    List.take_left' (length_toBits _), ofBits_toBits]

/-- Settles O41: byte `j` is the slice of eight bits at `8·j`. -/
theorem bytesUnpackAndPack : Obligations.BytesUnpackAndPack := by
  refine fun B => ⟨length_bytesToBits B, fun j i b inByte h => ?_, bitsToBytes_bytesToBits B⟩
  rw [getElem?_bytesToBits inByte h]
  exact congrArg some Nat.testBit_eq_decide_div_mod_eq

/-! ### Suffix and padding as bytes (R156) -/

theorem length_withSuffix (m : Bits) : (withSuffix m).length = m.length + 2 := List.length_append

/-- What follows a message of whole bytes that leaves `q` bytes of the last block: the suffix and the
padding, as bytes. -/
def paddingBytes (q : Nat) : List (BitVec 8) :=
  if q = 1 then [0x86#8] else [0x06#8] ++ List.replicate (q - 2) 0x00#8 ++ [0x80#8]

theorem bytesToBits_zeros (k : Nat) :
    bytesToBits (List.replicate k 0x00#8) = List.replicate (8 * k) false := by
  induction k with
  | zero => rfl
  | succ k ih =>
    rw [List.replicate_succ, bytesToBits_cons, ih, Nat.mul_succ, Nat.add_comm,
      ← List.replicate_append_replicate]
    rfl

/-- The suffix, a one, zeros and a one are the bytes of R156. -/
theorem bytesToBits_paddingBytes {r m q : Nat} (pos : 0 < q) (zeros : padZeros r m + 4 = 8 * q) :
    bytesToBits (paddingBytes q) = suffix ++ pad r m := by
  by_cases one : q = 1
  · have four : padZeros r m = 4 := by omega
    rw [paddingBytes, if_pos one, pad, four]
    rfl
  · have split : padZeros r m = 5 + (8 * (q - 2) + 7) := by omega
    rw [paddingBytes, if_neg one, bytesToBits_append, bytesToBits_append, bytesToBits_zeros, pad,
      split, ← List.replicate_append_replicate, ← List.replicate_append_replicate]
    simp only [List.append_assoc]
    rfl

/-- Settles O40: in the shipped configuration the missing bits are whole bytes. -/
theorem hashPaddingBytes : Obligations.HashPaddingBytes := by
  intro B q bits
  have length : bits.length = 8 * B.length + 2 := by
    rw [length_withSuffix, length_bytesToBits]
  have blocksEnd : bits.length + 2 + (8 * q - 4) = (B.length / 136 + 1) * 1088 := by omega
  have zeros : padZeros 1088 bits.length = 8 * q - 4 :=
    padZeros_eq_of_dvd (by omega) ⟨_, blocksEnd.trans (Nat.mul_comm _ _)⟩
  refine ⟨?_, ?_⟩
  · have bytes := bytesToBits_paddingBytes (r := 1088) (m := bits.length) (q := q) (by omega) (by omega)
    show bits ++ pad 1088 bits.length = bytesToBits (B ++ paddingBytes q)
    rw [bytesToBits_append, bytes, ← List.append_assoc]
    rfl
  · have whole : (padded 1088 bits).length = (B.length / 136 + 1) * 1088 := by
      rw [length_padded, zeros]; omega
    show (blocks 1088 (padded 1088 bits)).length = _
    rw [length_blocks, whole, Nat.mul_div_cancel _ (by decide)]

end Sys2Proof.Machine

/-! # System commands (spec/48_system.md): INIT and RDSR -/

namespace Sys2Proof

/-! ### Their headers (R62, R63) -/

theorem decode_init : decode ⟨0x0001, []⟩ = .command .init := by decide

theorem encode_rdsr (n : BitVec 5) :
    encode (.rdsr n) = ⟨BitVec.ofNat 16 (0x0002 + 256 * n.toNat), []⟩ := by
  revert n
  decide

theorem decode_rdsr_zero : decode ⟨0x0002, []⟩ = .command (.rdsr 0) := by decide

/-- Only status register 0 exists (R42), so any other immediate is outside its range. -/
theorem decode_rdsr_of_ne_zero (n : BitVec 5) (nonzero : n ≠ 0) :
    decode ⟨BitVec.ofNat 16 (0x0002 + 256 * n.toNat), []⟩ = .illegal .immediateOutOfRange := by
  rw [← encode_rdsr]
  exact decode_encode_of_not_wf _ (beq_false_of_ne nonzero)

end Sys2Proof

namespace Sys2Proof.Machine

/-! ### The two commands (R170, R171) -/

theorem exec_init (s : State) : exec .init s = .next (((s.setS 0).setStatus 0).respond 0 []) := rfl

theorem exec_rdsr_zero (s : State) : exec (.rdsr 0) s = .next (s.respond 0 (toBits s.status)) := rfl

theorem exec_rdsr_of_ne_zero (s : State) (n : BitVec 5) (nonzero : n ≠ 0) :
    exec (.rdsr n) s = .next (s.raise .illegalCommand) := by
  rw [exec, execRdsr, if_neg nonzero]

/-- Settles O18: both registers are written with zero, and the response is empty. -/
theorem initClearsBlock : Obligations.InitClearsBlock :=
  ⟨decode_init, fun s => ⟨_, exec_init s, rfl, rfl, rfl, rfl, rfl, rfl, rfl⟩⟩

/-- Settles O19: the payload is STATUS as a sequence, whose upper bits are zero by `StatusOk`. -/
theorem rdsrReturnsStatus : Obligations.RdsrReturnsStatus := by
  refine ⟨decode_rdsr_zero, decode_rdsr_of_ne_zero, fun s => ?_, fun s n nonzero => ?_⟩
  · refine ⟨_, toBits s.status, exec_rdsr_zero s, rfl, rfl, rfl, ⟨rfl, rfl, rfl, rfl⟩,
      length_toBits s.status, getElem?_toBits s.status, fun ⟨reserved, _⟩ p inRange high => ?_⟩
    rw [getElem?_toBits s.status p inRange, reserved p inRange high]
  · exact ⟨_, exec_rdsr_of_ne_zero s n nonzero, endsInError_raise s .illegalCommand⟩

end Sys2Proof.Machine

/-! # Exceptions (spec/60_exceptions.md): errors, responses, waiting -/

namespace Sys2Proof.Machine

/-- Settles O43: of the four answers of `runFrame`, only `raise` sends a non-zero code. -/
theorem errorsArePrecise : Obligations.ErrorsArePrecise := by
  intro f s
  obtain ⟨-, h⟩ | ⟨-, h⟩ | ⟨-, -, v, payload, h⟩ | ⟨e, h⟩ := runFrame_cases f s
  · exact ⟨_, _, h, rfl, Nat.zero_le 4, fun nonzero => absurd rfl nonzero⟩
  · exact ⟨_, _, h, rfl, Nat.zero_le 4, fun nonzero => absurd rfl nonzero⟩
  · exact ⟨_, _, h, rfl, Nat.zero_le 4, fun nonzero => absurd rfl nonzero⟩
  · exact ⟨_, _, h, rfl, e.code_le, fun _ => endsInError_raise s e⟩

/-- The length that R192 gives the payload of a response. -/
theorem ResponseTo.length_payload {cfg : Config} {i : Instr} {r : Response}
    (h : ResponseTo cfg i r) :
    r.payload.length = if r.code ≠ 0 then 0 else successLength cfg i := by
  obtain ⟨success, length⟩ | ⟨e, rfl⟩ := h
  · rw [if_neg (not_not_intro success), length]
  · rw [if_pos e.code_ne_zero, List.length_nil]

/-- Settles O45: the command's response is one of `ResponseTo`, and the table of R192 is
`successLength`. -/
theorem responseLengthsFixed : Obligations.ResponseLengthsFixed := by
  intro i s
  obtain ⟨t, r, answer, sent, response⟩ := exec_response i s
  refine ⟨t, r, answer, sent, ?_⟩
  cases i <;> exact response.length_payload

/-- A host with no move left leaves the block to itself (R201, R216). -/
theorem step_of_no_move (s : State) (h : s.host = []) : step s = advance s := by
  rw [step, hostStep, h]

/-- Settles O5: each of the three moves leads to `advance`, which a ready block does not heed. -/
theorem waitingChangesNothing : Obligations.WaitingChangesNothing := by
  refine fun s ready => ⟨fun h => ?_, fun rest h sent => ?_, fun rest h => ?_⟩
  · exact (step_of_no_move s h).trans (advance_of_ready s ready)
  · exact (step_of_receive_empty s rest h sent).trans (advance_of_ready s ready)
  · exact (step_of_pause s rest h).trans (advance_of_ready (s.setHost rest) ready)

end Sys2Proof.Machine

/-! # Reset and hazards (spec/70_reset_and_hazards.md)

Reset is `resetBlock`. The busy period ends because every activity ends: a begun frame and a pending
message by their finer steps (R125, R155), and a permutation from whatever stage and round it stands in. -/

namespace Sys2Proof.Machine

/-! ### Reset (R211, R220) -/

/-- Settles O1: a register that is zero has no bit set. -/
theorem resetLeavesResetState : Obligations.ResetLeavesResetState :=
  ⟨fun _ _ => BitVec.getLsbD_zero, fun _ _ => BitVec.getLsbD_zero, rfl, rfl, rfl, rfl, rfl, rfl, rfl⟩

/-- Settles O3: the step is `resetBlock`, whose effect is known field by field. -/
theorem resetAbandonsCommand : Obligations.ResetAbandonsCommand := fun s rest h =>
  ⟨_, step_of_assertReset s rest h, rfl, rfl, rfl, rfl, rfl, rfl, rfl⟩

/-! ### A busy block (R216) -/

/-- A command in progress answers a next state with the host's moves as they are. -/
theorem fineStep_keeps_host (a : Activity) (s : State) :
    ∃ t, fineStep a s = .next t ∧ t.host = s.host := by
  obtain ⟨t, answer, -, host, -⟩ := fineStep_sameEnvironment a s
  exact ⟨t, answer, host⟩

/-- Settles O4: every move but reset and a receive that is served leads to the finer step. -/
theorem busyBlockHoldsFrame : Obligations.BusyBlockHoldsFrame := by
  refine ⟨fun s a busy held => ?_, fun s a rest busy h => ?_⟩
  · have goesOn : step s = advance s := by
      obtain offers | ⟨rest, h, sent⟩ := held
      · exact step_of_busy s a busy offers
      · exact step_of_receive_empty s rest h sent
    obtain ⟨t, finer, host⟩ := fineStep_keeps_host a s
    exact ⟨t, (goesOn.trans (advance_of_activity s a busy)).trans finer, finer, host⟩
  · obtain ⟨t, finer, host⟩ := fineStep_keeps_host a (s.setHost rest)
    have goesOn := advance_of_activity (s.setHost rest) a busy
    exact ⟨t, ((step_of_pause s rest h).trans goesOn).trans finer, finer, host⟩

/-! ### The busy period ends (R15, R216) -/

/-- Some number of finer steps leads to a block with no command in progress. -/
def BusyEnds (s : State) : Prop := ∃ n t, advanceN n s = .next t ∧ t.seq.activity = none

theorem BusyEnds.of_advanceN {s t : State} {n : Nat} (ends : BusyEnds t)
    (h : advanceN n s = .next t) : BusyEnds s := by
  obtain ⟨m, u, more, ready⟩ := ends
  exact ⟨n + m, u, (advanceN_add n m s t h).trans more, ready⟩

theorem BusyEnds.of_advance {s t : State} (ends : BusyEnds t) (h : advance s = .next t) :
    BusyEnds s := ends.of_advanceN ((advanceN_one s).trans h)

theorem busyEnds_of_ready {s : State} (ready : s.seq.activity = none) : BusyEnds s :=
  ⟨0, s, rfl, ready⟩

/-- A frame that has just been accepted ends as its one-step effect does. -/
theorem busyEnds_accept (f : Frame) (s : State) : BusyEnds (accept f s) := by
  obtain ⟨n, finer⟩ := advanceN_accept f s
  obtain ⟨t, answer, idle, -⟩ := runFrame_outside f s
  exact ⟨n, t, finer.trans answer, congrArg Seq.activity idle⟩

theorem busyEnds_of_reply {s : State} (busy : s.seq.activity = some .reply) : BusyEnds s :=
  (busyEnds_of_ready rfl).of_advance (advance_of_activity s .reply busy)

/-- A whole number of pending blocks is absorbed, and then the response is sent. -/
theorem busyEnds_of_absorb {s : State} (busy : s.seq.activity = some .absorb)
    (valid : cfgValid s.cfg = true) (whole : s.seq.pending.length % rate s.cfg = 0) : BusyEnds s :=
  ⟨_, _, advanceN_absorb (s.seq.pending.length / rate s.cfg) s _ busy (rate_pos_of_valid _ valid)
    (Nat.div_mul_cancel (Nat.dvd_of_mod_eq_zero whole)).symm rfl, rfl⟩

section InsidePermutation

variable {a : Activity} {last : Fin 24} {finished : State → State} {s : State}

/-- However the rounds leave `S`, the command ends after the last of them. -/
def EndsAfterRounds (finished : State → State) (s : State) : Prop :=
  ∀ A, BusyEnds (finished ((s.setS A).setSeq { s.seq with stg := .theta, rnd := 0 }))

variable (stages : ∀ u, fineStep a u = .next (stageStep last finished u))
  (busy : s.seq.activity = some a) (inRange : s.seq.rnd ≤ last) (after : EndsAfterRounds finished s)

include stages busy inRange after

/-- The rounds from this one to `last` are run. -/
theorem busyEnds_of_theta (stg : s.seq.stg = .theta) : BusyEnds s :=
  (after _).of_advanceN (advanceN_rounds stages (last.val - s.seq.rnd.val) s busy stg
    (Nat.add_sub_cancel' inRange))

/-- The round ends, and with it the rounds, or the next round is due. -/
theorem busyEnds_of_iota (stg : s.seq.stg = .iota) : BusyEnds s := by
  refine BusyEnds.of_advance ?_ ((advance_of_activity s a busy).trans (stages s))
  rw [stageStep_iota last finished s stg]
  split
  next => exact after _
  next notLast =>
    have lt : s.seq.rnd < last := lt_of_le_of_ne inRange notLast
    exact busyEnds_of_theta stages (s := State.setSeq _ _) busy (Fin.add_one_le_of_lt lt) after rfl

theorem busyEnds_of_chi (stg : s.seq.stg = .chi) : BusyEnds s := by
  refine BusyEnds.of_advance ?_ ((advance_of_activity s a busy).trans (stages s))
  rw [stageStep_chi last finished s stg]
  exact busyEnds_of_iota stages (s := State.setSeq _ _) busy inRange after rfl

theorem busyEnds_of_rhopi (stg : s.seq.stg = .rhopi) : BusyEnds s := by
  refine BusyEnds.of_advance ?_ ((advance_of_activity s a busy).trans (stages s))
  rw [stageStep_rhopi last finished s stg]
  exact busyEnds_of_chi stages (s := State.setSeq _ _) busy inRange after rfl

theorem busyEnds_of_stageStep : BusyEnds s := by
  cases stg : s.seq.stg with
  | theta => exact busyEnds_of_theta stages busy inRange after stg
  | rhopi => exact busyEnds_of_rhopi stages busy inRange after stg
  | chi => exact busyEnds_of_chi stages busy inRange after stg
  | iota => exact busyEnds_of_iota stages busy inRange after stg

end InsidePermutation

/-- Settles O53: one case for each activity, with what the invariant says of it. -/
theorem busyPeriodEnds : Obligations.BusyPeriodEnds := by
  intro s ⟨_, fits, _⟩
  show BusyEnds s
  cases busy : s.seq.activity with
  | none => exact busyEnds_of_ready busy
  | some a =>
    cases a with
    | accepted f =>
      have accepted : s.seq = { Seq.idle with activity := some (.accepted f) } := by
        rwa [SeqOk, busy] at fits
      have same : accept f s = s := by rw [accept, ← accepted]; rfl
      exact same ▸ busyEnds_accept f s
    | rounds last =>
      obtain ⟨inRange, -, -⟩ := (seqOk_rounds_iff busy).mp fits
      exact busyEnds_of_stageStep (finished := toReply) (fun _ => rfl) busy inRange
        fun _ => busyEnds_of_reply rfl
    | reply => exact busyEnds_of_reply busy
    | absorb =>
      obtain ⟨valid, -, -, whole⟩ := (seqOk_absorb_iff busy).mp fits
      exact busyEnds_of_absorb busy valid whole
    | absorbRounds last =>
      obtain ⟨valid, rfl, whole⟩ := (seqOk_absorbRounds_iff busy).mp fits
      exact busyEnds_of_stageStep (finished := nextBlock) (fun _ => rfl) busy (Fin.le_last _)
        fun _ => busyEnds_of_absorb rfl valid whole

/-! ### The wait of the host ends (R216) -/

theorem advanceN_keeps_host {n : Nat} {s t : State} (h : advanceN n s = .next t) :
    t.host = s.host := by
  induction n generalizing s with
  | zero => cases h; rfl
  | succ n ih =>
    obtain ⟨u, finer, -, host, -⟩ := advance_sameEnvironment s
    rw [advanceN_succ_of_advance s u n finer] at h
    exact (ih h).trans host

/-- Settles O55: the host leaves the block to itself, so steps lead where the finer steps of O53 do. -/
theorem stepsEndBusyPeriod : Obligations.StepsEndBusyPeriod := by
  intro s inv offers
  obtain ⟨n, t, finer, ready⟩ := busyPeriodEnds s inv
  obtain ⟨k, run⟩ := core_run_of_advanceN n s t offers finer
  exact ⟨k, t, run, ready, advanceN_keeps_host finer⟩

end Sys2Proof.Machine
